-- ==== Sys2Proof/Word.lean ====
section
/-! DEFINITION. The bit vectors of the spec (spec/00_scope.md R5, spec/30_encoding.md R45, R52). -/

namespace Sys2Proof

/-- A byte: 8 bits (R5). -/
abbrev Byte := BitVec 8

/-- A word: 32 bits, unsigned (R5). -/
abbrev Word := BitVec 32

/-- A 64-bit value: the block counter and the bit length (R13, R17). -/
abbrev Long := BitVec 64

/-- A command word on the command port: 10 bits, `op` in bits 9..8 and `data` in bits 7..0 (R45). -/
abbrev CmdWord := BitVec 10

/-- A digest on the response port: 160 bits (R52). -/
abbrev Digest := BitVec 160

end Sys2Proof
end

