-- ==== Sys2Proof/Syntax.lean ====
section
/-! DEFINITION. The commands (spec/opcode_table.json, spec/30_encoding.md R46). -/

namespace Sys2Proof

/-- The three commands of the command port (R46): one constructor per row of the opcode table. -/
inductive Instr where
  /-- `RESET` (R61). -/
  | reset
  /-- `PUSH d` (R65); the message byte is the command word's `data` field (R47). -/
  | push (d : Byte)
  /-- `FINISH` (R101). -/
  | finish
  deriving DecidableEq, Repr

end Sys2Proof
end

