-- ==== Sys2Proof/WellFormed.lean ====
section
/-! DEFINITION. Which commands and which command words are legal (spec/30_encoding.md R47, R48).
Every command is well formed: a PUSH carries any of the 256 bytes and the other two carry nothing. What
can be ill formed is a command word: R48 lists the three reserved ranges, checked here one by one. -/

namespace Sys2Proof

/-- The `op` field of a command word (R45). -/
def CmdWord.op (w : CmdWord) : BitVec 2 := w.extractLsb' 8 2

/-- The `data` field of a command word (R45). -/
def CmdWord.data (w : CmdWord) : Byte := w.extractLsb' 0 8

/-- Reserved range 1 of R48: `op = 11`. -/
def CmdWord.reservedOp (w : CmdWord) : Bool := CmdWord.op w == 3#2

/-- Reserved range 2 of R48: `op = 00` and `data` not zero. -/
def CmdWord.resetWithData (w : CmdWord) : Bool := CmdWord.op w == 0#2 && CmdWord.data w != 0#8

/-- Reserved range 3 of R48: `op = 10` and `data` not zero. -/
def CmdWord.finishWithData (w : CmdWord) : Bool := CmdWord.op w == 2#2 && CmdWord.data w != 0#8

/-- A command word that the host may issue: in none of the reserved ranges of R48. -/
def CmdWord.legal (w : CmdWord) : Bool :=
  !CmdWord.reservedOp w && !CmdWord.resetWithData w && !CmdWord.finishWithData w

/-- Every command is well formed: R47, "All 256 values are legal message bytes". -/
def Instr.wellFormed : Instr → Bool
  | .reset => true
  | .push _ => true
  | .finish => true

end Sys2Proof
end

