-- ==== Sys2Proof/Decode.lean ====
section
/-! DEFINITION. Decoding and encoding of command words (spec/30_encoding.md R45 to R49). -/

namespace Sys2Proof

/-- Why a command word is reserved: the three ranges of R48, by name. -/
inductive Reserved where
  /-- `op = 11`: words `0x300` to `0x3FF`. -/
  | opThree
  /-- `op = 00` and `data` not zero: words `0x001` to `0x0FF`. -/
  | resetData
  /-- `op = 10` and `data` not zero: words `0x201` to `0x2FF`. -/
  | finishData
  deriving DecidableEq, Repr

/-- One row of the opcode map of R46: a word `w` selects the row for which `w & mask = pattern`. -/
structure OpRow where
  mask : CmdWord
  pattern : CmdWord
  /-- The command, from the word's `data` field. -/
  build : Byte → Instr

/-- The row of RESET (R46). -/
def rowReset : OpRow := ⟨0x3FF#10, 0x000#10, fun _ => .reset⟩

/-- The row of PUSH (R46). -/
def rowPush : OpRow := ⟨0x300#10, 0x100#10, .push⟩

/-- The row of FINISH (R46). -/
def rowFinish : OpRow := ⟨0x3FF#10, 0x200#10, fun _ => .finish⟩

/-- The opcode map (R46). -/
def opcodeMap : List OpRow := [rowReset, rowPush, rowFinish]

/-- Does the word select the row (R46)? -/
def OpRow.selects (r : OpRow) (w : CmdWord) : Bool := (w &&& r.mask) == r.pattern

/-- The name of the reserved range of a word that selects no row (R48). -/
def reservedRange (w : CmdWord) : Reserved :=
  if CmdWord.reservedOp w then .opThree
  else if CmdWord.resetWithData w then .resetData
  else .finishData

/-- The decoder: every command word gives its command or the name of its reserved range (R46, R48). It
looks at no state (R45). -/
def decode (w : CmdWord) : Except Reserved Instr :=
  match opcodeMap.find? (fun r => r.selects w) with
  | some r => .ok (r.build (CmdWord.data w))
  | none => .error (reservedRange w)

/-- The encoder: `RESET` is `0x000`, `PUSH d` is `0x100 + d`, `FINISH` is `0x200` (R46, R55). -/
def encode : Instr → CmdWord
  | .reset => 0x000#10
  | .push d => 1#2 ++ d
  | .finish => 0x200#10

/-- The command that the decoder reads from bits numbered as the opcode table numbers them. A command is
one 10-bit word and nothing else (R49): a number with a bit above bit 9 is no command word. -/
def decodeTableWord (_nbits w : Nat) : Option Instr :=
  if w < 1024 then
    match decode (BitVec.ofNat 10 w) with
    | .ok i => some i
    | .error _ => none
  else none

end Sys2Proof
end

