-- ==== Sys2Proof/Config.lean ====
section
/-! DEFINITION. The free values: what the spec leaves open (`draw(S)` of spec/00_scope.md 6.3, the open
parameters of spec/92_eei_decisions.md). None of these constants has a body, so no proof can see a
value of one. Each takes the number of the draw it belongs to; the machine counts its draws in
`State.draws` and never uses a number twice (assumption log 2). -/

namespace Sys2Proof

/-- Which 32-bit register a free word is for. -/
inductive FreeReg where
  | h0 | h1 | h2 | h3 | h4
  | a | b | c | d | e
  | tmp
  | w (i : Nat)
  deriving DecidableEq, Repr

/-- A free 32-bit value: `H` after misuse (R141), the working registers, `TMP` and the message schedule
between commands (R15, R16, U8). -/
opaque Config.freeWord : Nat → FreeReg → Word

/-- A free byte of the block buffer at an index: the parameter `BUF_RESET` (D7), and the buffer after
misuse (R141). -/
opaque Config.freeByte : Nat → Nat → Byte

/-- A free value of `FILLED` in 0..63, hence six bits: after FINISH (R104), after misuse (R141). -/
opaque Config.freeFilled : Nat → BitVec 6

/-- A free value of `NBLK` (R141). -/
opaque Config.freeNblk : Nat → Long

/-- A free value of `LENREG` (R17, R61). -/
opaque Config.freeLenreg : Nat → Long

/-- A free value of the index `T`, which stays in 0..79 (R17). -/
opaque Config.freeIndex : Nat → Fin 80

/-- The free response of a FINISH on a consumed state (R141). -/
opaque Config.freeResponse : Nat → Digest

/-- What the lines `rsp_digest` carry while `rsp_valid` is 0 (R53). -/
opaque Config.freeBus : Nat → Digest

end Sys2Proof
end

