-- ==== Sys2Proof/Machine/Operands.lean ====
section
/-! DEFINITION. The datapath's functions on words and bytes: rotation, addition, the round functions and
constants, the byte orders (spec/42_compress.md, spec/20_memory.md). -/

namespace Sys2Proof.Machine

/-- The five hash words `H[0..4]`, or any value of that shape (R10). -/
@[ext]
structure Hash where
  h0 : Word
  h1 : Word
  h2 : Word
  h3 : Word
  h4 : Word
  deriving DecidableEq, Repr

/-- The initial hash words `IV[0..4]` (R5, R10). -/
def iv : Hash := ⟨0x67452301#32, 0xEFCDAB89#32, 0x98BADCFE#32, 0x10325476#32, 0xC3D2E1F0#32⟩

/-- The rotation amounts the hardware uses (R5, R76): no other amount occurs. -/
inductive RotAmount where
  | one | two | five | thirty
  deriving DecidableEq, Repr

/-- The number of bit positions of a rotation amount (R76). -/
def RotAmount.bits : RotAmount → Nat
  | .one => 1
  | .two => 2
  | .five => 5
  | .thirty => 30

/-- `rotl32(x, n)` by R76's formula. R76 defines it for 1 to 31; the machine uses it through `rotl`
only, whose amounts are 1, 2, 5 and 30 (assumption log 19). -/
def rotl32 (x : Word) (n : Nat) : Word := (x <<< n) ||| (x >>> (32 - n))

/-- Rotation by one of the four amounts that occur (R76). -/
def rotl (x : Word) (r : RotAmount) : Word := rotl32 x r.bits

/-- `x +32 y`: addition modulo 2^32, the carry out of bit 31 discarded (R77). -/
def add32 (x y : Word) : Word := x + y

/-- The four groups of twenty rounds (R81, R83). -/
inductive RoundGroup where
  | g0 | g1 | g2 | g3
  deriving DecidableEq, Repr

/-- The group of round `t`, which is `t div 20` (R81). Rounds are 0 to 79 only (assumption log 19). -/
def roundGroup (t : Nat) : RoundGroup :=
  match t / 20 with
  | 0 => .g0
  | 1 => .g1
  | 2 => .g2
  | _ => .g3

/-- Choose: `(b & c) | (~b & d)` (R81). -/
def choose (b c d : Word) : Word := (b &&& c) ||| (~~~b &&& d)

/-- Parity: `b ^ c ^ d` (R81). -/
def parity (b c d : Word) : Word := b ^^^ c ^^^ d

/-- Majority: `(b & c) | (b & d) | (c & d)` (R81). -/
def majority (b c d : Word) : Word := (b &&& c) ||| (b &&& d) ||| (c &&& d)

/-- The round function `f(t, b, c, d)` (R81). -/
def roundF (t : Nat) (b c d : Word) : Word :=
  match roundGroup t with
  | .g0 => choose b c d
  | .g1 => parity b c d
  | .g2 => majority b c d
  | .g3 => parity b c d

/-- The round constant `K(t)` (R82). -/
def roundK (t : Nat) : Word :=
  match roundGroup t with
  | .g0 => 0x5A827999#32
  | .g1 => 0x6ED9EBA1#32
  | .g2 => 0x8F1BBCDC#32
  | .g3 => 0xCA62C1D6#32

/-- `be32`: four bytes, the first the most significant (R30). -/
def be32 (b0 b1 b2 b3 : Byte) : Word := b0 ++ b1 ++ b2 ++ b3

/-- Byte `k` (0 to 7) of a 64-bit value written big-endian: bits `63-8k` to `56-8k` (R34). -/
def beByte (v : Long) (k : Nat) : Byte := v.extractLsb' (56 - 8 * k) 8

/-- The padding byte `0x80`: the terminator bit and seven zero bits (R33, R96). -/
def terminator : Byte := 0x80#8

/-- The length in bits, `NBLK * 512 + 8 * FILLED` modulo 2^64 (R95). -/
def bitLength (nblk : Long) (filled : BitVec 7) : Long := nblk * 512#64 + 8#64 * filled.setWidth 64

/-- The 160-bit value `H[0] ‖ H[1] ‖ H[2] ‖ H[3] ‖ H[4]` (R52). -/
def Hash.digest (h : Hash) : Digest := h.h0 ++ h.h1 ++ h.h2 ++ h.h3 ++ h.h4

/-- The canonical serialisation of a digest: byte `m` counted from the most significant end (R35). -/
def digestBytes (x : Digest) : List Byte := (List.range 20).map fun m => x.extractLsb' (152 - 8 * m) 8

end Sys2Proof.Machine
end

