-- ==== Sys2Proof/Machine/Memory.lean ====
section
/-! DEFINITION. The contents of the block buffer as plain data: the bytes written since the buffer last
became unspecified, as a list of (index, byte) pairs in one canonical form (spec/10_state.md R11,
assumption log 3), and the stores of spec/20_memory.md R31. -/

namespace Sys2Proof.Machine

/-- The number of bytes of the block buffer (R5, R11): its indices are 0 to 63. -/
def blockSize : Nat := 64

/-- The bytes of the buffer that have been written, indices strictly rising. -/
abbrev Memory := List Host.Cell

/-- The byte listed at an index. An unlisted index has no value of its own here: what the machine reads
there is `State.byteAt`'s free value. -/
def Memory.read? : Memory → Nat → Option Byte
  | [], _ => none
  | (b, v) :: m, a => if b = a then some v else Memory.read? m a

/-- Store one byte, keeping the list sorted with one entry per index. -/
def Memory.write : Memory → Nat → Byte → Memory
  | [], a, v => [(a, v)]
  | (b, x) :: m, a, v =>
    if a < b then (a, v) :: (b, x) :: m
    else if a = b then (a, v) :: m
    else (b, x) :: Memory.write m a v

/-- Store bytes one after the other at rising indices from `a` on. -/
def Memory.writeBytes : Memory → Nat → List Byte → Memory
  | m, _, [] => m
  | m, a, v :: vs => Memory.writeBytes (Memory.write m a v) (a + 1) vs

/-- `for i in [lo, hi): BUF[i] <- 0x00`; nothing when `lo >= hi` (R98, R99). -/
def Memory.zeroFill (m : Memory) (lo hi : Nat) : Memory :=
  Memory.writeBytes m lo (List.replicate (hi - lo) 0#8)

/-- The eight bytes of a 64-bit value, the most significant first (R34). -/
def beBytes (v : Long) : List Byte := (List.range 8).map (beByte v)

/-- `MemWrite(addr, 8, v)`: eight bytes, big-endian (R31, R34). -/
def Memory.write64 (m : Memory) (addr : Nat) (v : Long) : Memory := Memory.writeBytes m addr (beBytes v)

/-- All indices from `lo` on, strictly rising, and inside the buffer. -/
def Memory.risingFrom : Nat → Memory → Bool
  | _, [] => true
  | lo, (a, _) :: m => decide (lo ≤ a) && decide (a < blockSize) && Memory.risingFrom (a + 1) m

/-- The canonical form: indices strictly rising, every index one of the buffer's. -/
def Memory.wf (m : Memory) : Bool := Memory.risingFrom 0 m

end Sys2Proof.Machine
end

