-- ==== Sys2Proof/Machine/State.lean ====
section
/-! DEFINITION. The state of the machine, its value after hardware reset, and the reasons a step can stop
(spec/10_state.md, spec/30_encoding.md R50 to R54). -/

namespace Sys2Proof.Machine

/-- The working registers of COMPRESS (R15, R16, R17): scratch, unspecified between commands. -/
@[ext]
structure Scratch where
  a : Word
  b : Word
  c : Word
  d : Word
  e : Word
  tmp : Word
  w : Vector Word 80
  t : BitVec 7
  deriving DecidableEq, Repr

/-- What the host drives on the input ports at one rising edge of `clk` (R50). -/
structure PortIn where
  rst : Bool
  cmdValid : Bool
  cmdWord : CmdWord
  rspReady : Bool
  deriving DecidableEq, Repr

/-- The latency parameters of R150, each as its excess over its least value, so that every value is
legal: `T_RESET = extraReset + 1`, `T_PUSH = extraPush + 1`, `T_COMPRESS = extraCompress + 1`;
`extraFinish` gives, for each FILLED `p` in 0..63, what `T_FINISH(p)` has beyond its compressions and the
response wait, the padding writes included; `misusePush` and `misuseFinish` are the finite times of R141
(assumption log 9). -/
structure Latency where
  extraReset : Nat
  extraPush : Nat
  extraCompress : Nat
  extraFinish : Vector Nat 64
  misusePush : Nat
  misuseFinish : Nat
  deriving DecidableEq, Repr

/-- The state (spec/10_state.md; INVENTORY.md lists every field with its rule). -/
@[ext]
structure State where
  /-- Free values drawn so far (log 2). -/
  draws : Nat
  /-- `H[0..4]` (R10). -/
  h : Hash
  /-- The bytes of `BUF` written since it last became unspecified (R11). -/
  buf : Memory
  /-- Which draw gives the other bytes of `BUF` (log 3). -/
  bufDraw : Nat
  /-- `FILLED` (R12). -/
  filled : BitVec 7
  /-- `NBLK` (R13). -/
  nblk : Long
  /-- `A..E`, `TMP`, `W`, `T` (R15 to R17). -/
  scratch : Scratch
  /-- `LENREG` (R17). -/
  lenreg : Long
  /-- `CONSUMED`, the ghost bit (R18). -/
  consumed : Bool
  /-- The response waiting to be taken; none when no response is pending (R53, R54). -/
  rsp : Option Digest
  /-- Rising edges for which the accepted command is still in progress (R51, R150). -/
  busy : Nat
  /-- The implementation's latencies (R150). -/
  latency : Latency
  /-- The host's input ports at the coming rising edges, next edge first (R50). -/
  drive : List PortIn
  /-- The command word presented and not yet accepted (R51). -/
  held : Option CmdWord
  /-- The digests the host has taken, oldest first (R53). -/
  delivered : List Digest
  deriving DecidableEq, Repr

/-- Why the machine stops. The hardware itself has no failure mode (R120). -/
inductive Fault where
  /-- Raised by PUSH and FINISH on a state that is not consumed when FILLED is 64 or more: the buffer
  has no byte at that index (R12, R22). SAFE: no state that satisfies R14a raises it (log 11). -/
  | noBufferByte (index : Nat)
  deriving DecidableEq, Repr

/-- Why the model gives a step no meaning. -/
inductive Refusal where
  /-- Raised by an arm of `exec` for a command that has no meaning yet. SAFE. -/
  | notModelled (mnemonic : String)
  /-- Raised by the step that would accept a reserved command word: R48, "a model must refuse a
  command stream that contains one". SAFE. -/
  | reservedWord (w : CmdWord)
  /-- Raised by the step at whose edge the host no longer presents the word it must hold until
  acceptance (R51): R147, "refuse an unstable word". SAFE. -/
  | unstableCommand (w : CmdWord)
  deriving DecidableEq, Repr

/-- Scratch registers whose values are all free, from draw `n` (R15 to R17, U8). -/
def Scratch.free (n : Nat) : Scratch where
  a := Config.freeWord n .a
  b := Config.freeWord n .b
  c := Config.freeWord n .c
  d := Config.freeWord n .d
  e := Config.freeWord n .e
  tmp := Config.freeWord n .tmp
  w := ⟨⟨(List.range 80).map fun i => Config.freeWord n (.w i)⟩, by simp⟩
  t := BitVec.ofNat 7 (Config.freeIndex n).val

/-- The machine right after hardware reset (R25, R60): the spec's values where it gives them, free values
from draw 0 for what it leaves unspecified, and nothing driven yet. -/
def State.reset : State where
  draws := 1
  h := iv
  buf := []
  bufDraw := 0
  filled := 0#7
  nblk := 0#64
  scratch := Scratch.free 0
  lenreg := Config.freeLenreg 0
  consumed := false
  rsp := none
  busy := 0
  latency := ⟨0, 0, 0, Vector.replicate 64 0, 0, 0⟩
  drive := []
  held := none
  delivered := []

end Sys2Proof.Machine
end

