-- ==== Sys2Proof/Machine/Ops.lean ====
section
/-! DEFINITION. The named operations over the buffer, the registers and the free values, which every
meaning is built from (spec/00_scope.md 6.3, spec/20_memory.md R31).

There is no operation for taking an exception and none for returning from one: the hardware has neither
(spec/60_exceptions.md R120, R124, R125). What plays the part of recovery is the operation
`toInitial`, shared by RESET and the hardware reset (R125). -/

namespace Sys2Proof.Machine

/-- The byte `BUF[a]`: the byte written there, or the free value of a byte that nothing has written since
the buffer became unspecified (R11, D7, log 3). -/
def State.byteAt (s : State) (a : Nat) : Byte :=
  match Memory.read? s.buf a with
  | some v => v
  | none => Config.freeByte s.bufDraw a

/-- `BUF[a] <- v`. -/
def putByte (a : Nat) (v : Byte) (s : State) : State := { s with buf := Memory.write s.buf a v }

/-- `MemRead(addr, 4)`: four bytes, big-endian (R30, R31). -/
def memRead32 (s : State) (addr : Nat) : Word :=
  be32 (s.byteAt addr) (s.byteAt (addr + 1)) (s.byteAt (addr + 2)) (s.byteAt (addr + 3))

/-- `MemWrite(addr, 1, v)` at an index that comes from FILLED (R31, R72). An index outside the buffer
does not exist (log 11). -/
def memWriteByte (addr : Nat) (v : Byte) (s : State) : Except Fault State :=
  if addr < blockSize then .ok (putByte addr v s) else .error (.noBufferByte addr)

/-- `MemWrite(addr, 8, v)`: eight bytes, big-endian (R31, R34). -/
def memWrite64 (addr : Nat) (v : Long) (s : State) : State := { s with buf := Memory.write64 s.buf addr v }

/-- `for i in [lo, hi): MemWrite(i, 1, 0x00)`; nothing when `lo >= hi` (R98, R99). -/
def zeroFill (lo hi : Nat) (s : State) : State := { s with buf := Memory.zeroFill s.buf lo hi }

/-- Read of schedule word `W[i]`, `i` in 0..79 (R16). -/
def Scratch.wAt (x : Scratch) (i : Nat) : Word := if h : i < 80 then x.w[i] else 0#32

/-- `W[i] <- v`, `i` in 0..79 (R16). -/
def Scratch.setW (x : Scratch) (i : Nat) (v : Word) : Scratch := { x with w := x.w.setIfInBounds i v }

/-- The five working registers `A..E` as a five-word value (R15, R88). -/
def Scratch.working (x : Scratch) : Hash := ⟨x.a, x.b, x.c, x.d, x.e⟩

/-- The draw that has just been used is not used again (log 2). -/
def endDraw (s : State) : State := { s with draws := s.draws + 1 }

/-- The working registers become unspecified, as they are between commands, by a draw of their own (R15 to
R17, U8, log 4). -/
def releaseScratch (s : State) : State := { s with draws := s.draws + 1, scratch := Scratch.free s.draws }

/-- The assignments that the hardware reset and RESET have in common (R60, R61): the initial values, and
the working registers and LENREG unspecified. -/
def toInitial (s : State) : State :=
  { s with
    h := iv
    filled := 0#7
    nblk := 0#64
    consumed := false
    scratch := Scratch.free s.draws
    lenreg := Config.freeLenreg s.draws }

/-- All five hash words free (R141). -/
def Hash.free (n : Nat) : Hash :=
  ⟨Config.freeWord n .h0, Config.freeWord n .h1, Config.freeWord n .h2, Config.freeWord n .h3,
    Config.freeWord n .h4⟩

/-- What PUSH and FINISH do to the state when it is consumed: every element is a draw, FILLED one in
0..63, CONSUMED stays (R141, D12, log 7). -/
def misuse (s : State) : State :=
  { s with
    h := Hash.free s.draws
    buf := []
    bufDraw := s.draws
    nblk := Config.freeNblk s.draws
    filled := (Config.freeFilled s.draws).setWidth 7
    scratch := Scratch.free s.draws
    lenreg := Config.freeLenreg s.draws }

end Sys2Proof.Machine
end

