-- ==== Sys2Proof/Machine/Compress.lean ====
section
/-! DEFINITION. COMPRESS and its micro-operations (spec/42_compress.md). No command word selects them:
PUSH and FINISH invoke COMPRESS (R75). The micro-operations work on the scratch registers alone; COMPRESS
is the one that reads and writes the rest of the state. -/

namespace Sys2Proof.Machine

/-- `W[j] <- MemRead(4j, 4)` for `j` in 0..15 (R78). -/
def loadBlock (s : State) : Scratch :=
  (List.range 16).foldl (fun x j => x.setW j (memRead32 s (4 * j))) s.scratch

/-- LOADW: `W[0..15]` from BUF, and `A..E <- H[0..4]` (R78). -/
def loadw (s : State) : Scratch :=
  { loadBlock s with a := s.h.h0, b := s.h.h1, c := s.h.h2, d := s.h.h3, e := s.h.h4 }

/-- The word that `SCHED(i)` computes: the single-rotate form for `i < 32` (R79), the form that rotates
by 2 from 32 on (R80). -/
def schedWord (x : Scratch) (i : Nat) : Word :=
  if i < 32 then
    rotl (x.wAt (i - 3) ^^^ x.wAt (i - 8) ^^^ x.wAt (i - 14) ^^^ x.wAt (i - 16)) .one
  else
    rotl (x.wAt (i - 6) ^^^ x.wAt (i - 16) ^^^ x.wAt (i - 28) ^^^ x.wAt (i - 32)) .two

/-- `T <- i`, the index of the micro-operation (R17). -/
def setT (i : Nat) (x : Scratch) : Scratch := { x with t := BitVec.ofNat 7 i }

/-- `SCHED(i)`, `i` in 16..79 (R79, R80). -/
def sched (i : Nat) (x : Scratch) : Scratch := (setT i x).setW i (schedWord x i)

/-- `for T in 16 .. 79: SCHED(T)` (R87). -/
def schedule (x : Scratch) : Scratch := (List.range' 16 64).foldl (fun x i => sched i x) x

/-- The sum of `ROUND(t)`: `rotl32(A, 5) +32 f(t, B, C, D) +32 E +32 K(t) +32 W[t]` (R84). -/
def roundSum (t : Nat) (x : Scratch) : Word :=
  add32 (add32 (add32 (add32 (rotl x.a .five) (roundF t x.b x.c x.d)) x.e) (roundK t)) (x.wAt t)

/-- The five assignments that shift the pipeline, in the source's order; as each reads only values not
yet overwritten they are one simultaneous assignment (R84). -/
def shiftPipeline (x : Scratch) : Scratch :=
  { x with a := x.tmp, b := x.a, c := rotl x.b .thirty, d := x.c, e := x.d }

/-- `ROUND(t)`, `t` in 0..79 (R84). -/
def round (t : Nat) (x : Scratch) : Scratch := shiftPipeline { setT t x with tmp := roundSum t x }

/-- `for T in 0 .. n - 1: ROUND(T)`: the first `n` rounds (R87). -/
def firstRounds (n : Nat) (x : Scratch) : Scratch := (List.range n).foldl (fun x t => round t x) x

/-- `for T in 0 .. 79: ROUND(T)` (R87). -/
def rounds (x : Scratch) : Scratch := firstRounds 80 x

/-- ADDBACK (R85). -/
def addback (h : Hash) (x : Scratch) : Hash where
  h0 := add32 h.h0 x.a
  h1 := add32 h.h1 x.b
  h2 := add32 h.h2 x.c
  h3 := add32 h.h3 x.d
  h4 := add32 h.h4 x.e

/-- The scratch registers when the eighty rounds are done (R87). It is not unfolded by unification, which
would run all the rounds. -/
@[irreducible] def roundsDone (s : State) : Scratch := rounds (schedule (loadw s))

/-- The end of COMPRESS, with the scratch registers as the rounds left them: ADDBACK (R85), and the count
of the block, modulo 2^64 (R86). -/
def addRounds (x : Scratch) (s : State) : State :=
  { s with scratch := x, h := addback s.h x, nblk := s.nblk + 1#64 }

/-- COMPRESS (R87). -/
def compress (s : State) : State := addRounds (roundsDone s) s

end Sys2Proof.Machine
end

