-- ==== Sys2Proof/Machine/Flags.lean ====
section
/-! DEFINITION. The hardware has no flags (spec/10_state.md R19). What steers control is computed from
FILLED at the moment of use and stored nowhere; the third such predicate, the round group, is
`roundGroup` in Operands. -/

namespace Sys2Proof.Machine

/-- `FILLED = 64`: the block is full (R65, R71). -/
def bufferFull (filled : BitVec 7) : Bool := filled == 64#7

/-- `FILLED <= 56` after MARK: the length field still fits in this block (R97, R102). -/
def lengthFits (filled : BitVec 7) : Bool := filled.ule 56#7

end Sys2Proof.Machine
end

