-- ==== Sys2Proof/Machine/Update.lean ====
section
/-! DEFINITION. PUSH, the buffer controller (spec/41_update.md R65). -/

namespace Sys2Proof.Machine

/-- `FILLED <- FILLED + 1` (R65, R96). -/
def bumpFilled (s : State) : State := { s with filled := s.filled + 1#7 }

/-- `FILLED <- 0` (R65). -/
def clearFilled (s : State) : State := { s with filled := 0#7 }

/-- The second half of PUSH: if the block is full, compress it and empty the buffer (R65, R71). -/
def flushIfFull (s : State) : State :=
  if bufferFull s.filled then releaseScratch (clearFilled (compress s)) else s

/-- `PUSH d` on a state that is not consumed (R65): store at FILLED, count, flush. -/
def pushAbsorbing (d : Byte) (s : State) : Host.Outcome State Fault Refusal :=
  match memWriteByte s.filled.toNat d s with
  | .error f => .fault f
  | .ok s => .next (flushIfFull (bumpFilled s))

/-- `PUSH d` (R65; R141 on a consumed state). -/
def execPush (d : Byte) (s : State) : Host.Outcome State Fault Refusal :=
  if s.consumed then .next (endDraw (misuse s)) else pushAbsorbing d s

end Sys2Proof.Machine
end

