-- ==== Sys2Proof/Machine/Finish.lean ====
section
/-! DEFINITION. FINISH, the padding engine (spec/43_finish.md). -/

namespace Sys2Proof.Machine

/-- CAPTURE (R95). -/
def capture (s : State) : State := { s with lenreg := bitLength s.nblk s.filled }

/-- MARK (R96): the byte `0x80` at FILLED, and FILLED counted up, to 64 at most (C1). -/
def mark (s : State) : Except Fault State :=
  match memWriteByte s.filled.toNat terminator s with
  | .error f => .error f
  | .ok s => .ok (bumpFilled s)

/-- ZFILL (R98). -/
def zfill (s : State) : State := zeroFill s.filled.toNat 56 s

/-- SPILL (R99): zero fill to the end of the block, compress it, zero fill the fresh block. -/
def spill (s : State) : State := zeroFill 0 56 (compress (zeroFill s.filled.toNat 64 s))

/-- The path decision after MARK (R97, R102). -/
def fillBlock (s : State) : State := if lengthFits s.filled then zfill s else spill s

/-- PUTLEN (R100). -/
def putlen (s : State) : State := memWrite64 56 s.lenreg s

/-- A response becomes pending (R52). -/
def respond (x : Digest) (s : State) : State := { s with rsp := some x }

/-- The end of FINISH: the response, which is the five hash words in order (R52, R103), CONSUMED set, FILLED a
draw in 0..63 (log 6), scratch unspecified (R101, R104). LENREG holds the captured length (R104) while the
response is pending; FINISH is complete only when the response has been taken (R54), and `takeResponse` then
makes LENREG unspecified (R17, log 5). -/
def finishEnd (s : State) : State :=
  { s with
    draws := s.draws + 1
    rsp := some s.h.digest
    consumed := true
    filled := (Config.freeFilled s.draws).setWidth 7
    scratch := Scratch.free s.draws }

/-- FINISH on a state that is not consumed (R101). -/
def finishAbsorbing (s : State) : Host.Outcome State Fault Refusal :=
  match mark (capture s) with
  | .error f => .fault f
  | .ok s => .next (finishEnd (compress (putlen (fillBlock s))))

/-- FINISH (R101; R141 on a consumed state: exactly one response, whose value is a draw). -/
def execFinish (s : State) : Host.Outcome State Fault Refusal :=
  if s.consumed then .next (endDraw (respond (Config.freeResponse s.draws) (misuse s)))
  else finishAbsorbing s

end Sys2Proof.Machine
end

