-- ==== Sys2Proof/Machine/Reset.lean ====
section
/-! DEFINITION. Hardware reset and the command RESET (spec/40_init_reset.md). -/

namespace Sys2Proof.Machine

/-- RESET (R61): the initial values; BUF unchanged (D8); no response. Defined in every condition of the
state: it reads nothing (R63). -/
def execReset (s : State) : Host.Outcome State Fault Refusal := .next (endDraw (toInitial s))

/-- NEW, the effect of `rst = 1` at a rising edge (R60): the initial values, BUF unspecified, the core
idle, any command in progress abandoned and any response not delivered dropped (R137). What the host has
taken stays with the host; what it was holding is presented no longer (log 10). -/
def hardwareReset (s : State) : State :=
  endDraw { toInitial s with
    buf := []
    bufDraw := s.draws
    rsp := none
    busy := 0
    held := none }

end Sys2Proof.Machine
end

