-- ==== Sys2Proof/Machine/Dispatch.lean ====
section
/-! DEFINITION. The meaning of each command (spec/30_encoding.md R46). -/

namespace Sys2Proof.Machine

/-- One command, carried to completion (R27): the host observes nothing in between. -/
def exec (i : Instr) (s : State) : Host.Outcome State Fault Refusal :=
  match i with
  | .reset => Sys2Proof.Machine.execReset s
  | .push d => Sys2Proof.Machine.execPush d s
  | .finish => Sys2Proof.Machine.execFinish s

end Sys2Proof.Machine
end

