-- ==== Sys2Proof/Machine/Ports.lean ====
section
/-! DEFINITION. The ports: what the host drives, what the core drives, and what one rising edge of `clk`
is for the core (spec/30_encoding.md R50 to R54, spec/60_exceptions.md R123,
spec/70_reset_and_hazards.md R136, R137, R150). -/

namespace Sys2Proof.Machine

/-- The host drives nothing: no reset, no command, no readiness for a response. -/
def idleEdge : PortIn := ⟨false, false, 0#10, false⟩

/-- The host presents a command word and is ready for a response. -/
def commandEdge (w : CmdWord) : PortIn := ⟨false, true, w, true⟩

/-- The host presents no command and is ready for a response. -/
def takeEdge : PortIn := ⟨false, false, 0#10, true⟩

/-- The host asserts `rst`. -/
def resetEdge : PortIn := ⟨true, false, 0#10, false⟩

/-- The output ports (R50). -/
structure PortOut where
  cmdReady : Bool
  rspValid : Bool
  rspDigest : Digest
  deriving DecidableEq, Repr

/-- `cmd_ready`: the core is out of reset, no command is in progress and no response is waiting (R51, R54,
R136). -/
def State.cmdReady (rst : Bool) (s : State) : Bool := !rst && s.busy == 0 && s.rsp.isNone

/-- `rsp_valid`: FINISH has computed the digest and the host has not taken it (R53, R136). -/
def State.rspValid (rst : Bool) (s : State) : Bool := !rst && s.busy == 0 && s.rsp.isSome

/-- `rsp_digest`: the response while `rsp_valid` is 1, a free value otherwise (R53, log 17). -/
def State.rspDigest (rst : Bool) (s : State) : Digest :=
  if s.rspValid rst then s.rsp.getD (Config.freeBus s.draws) else Config.freeBus s.draws

/-- The output ports as the host sees them at an edge with the given `rst` (R50). -/
def State.ports (rst : Bool) (s : State) : PortOut :=
  ⟨s.cmdReady rst, s.rspValid rst, s.rspDigest rst⟩

/-- The command word presented at an edge, if any (R51). -/
def PortIn.presented (e : PortIn) : Option CmdWord := if e.cmdValid then some e.cmdWord else none

/-- What one rising edge is for the core. -/
inductive PortEvent where
  | hardwareReset
  | unstable (w : CmdWord)
  | inProgress
  | deliver (x : Digest)
  | stall
  | accept (w : CmdWord)
  | idle
  deriving DecidableEq, Repr

/-- The event of an edge at which the host keeps its promises: a command in progress goes on; a pending
response is taken or waits (R53, R54); otherwise the core is ready, and a presented command is accepted
(R51). -/
def readyEvent (e : PortIn) (s : State) : PortEvent :=
  if s.busy ≠ 0 then .inProgress
  else match s.rsp with
    | some x => if e.rspReady then .deliver x else .stall
    | none => match e.presented with
      | some w => .accept w
      | none => .idle

/-- The event of an edge. `rst` comes before everything (R123). A word that the host presented and that is
not accepted yet must be presented still (R51). -/
def portEvent (e : PortIn) (s : State) : PortEvent :=
  if e.rst then .hardwareReset
  else match s.held with
    | none => readyEvent e s
    | some w => if e.presented = some w then readyEvent e s else .unstable w

/-- At an edge that accepts nothing, a presented word is one that the host must go on presenting (R51). -/
def keepPresented (e : PortIn) (s : State) : State := { s with held := e.presented }

/-- One edge of a command in progress goes by. -/
def passBusyEdge (s : State) : State := { s with busy := s.busy - 1 }

/-- The host takes the response: `rsp_valid` falls, FINISH is complete (R53, R54). From here on the core is
between commands, and LENREG is unspecified (R17, U8, log 5). -/
def takeResponse (x : Digest) (s : State) : State :=
  { s with
    draws := s.draws + 1
    lenreg := Config.freeLenreg s.draws
    rsp := none
    delivered := s.delivered ++ [x] }

/-- The word presented is accepted and is no longer held (R51). -/
def releaseHeld (s : State) : State := { s with held := none }

/-- How many blocks FINISH compresses: one if FILLED is at most 55, else two (R97, R101). -/
def finishBlocks (filled : BitVec 7) : Nat := if filled.toNat ≤ 55 then 1 else 2

/-- What `T_FINISH(p)` has beyond its compressions and the host's wait, for `p` in 0..63 (R150, log 9). -/
def Latency.finishBeyond (l : Latency) (p : Nat) : Nat := l.extraFinish[p]?.getD 0

/-- How many edges after its acceptance a command is still in progress, from the latencies (R150). Of a
latency of `n` cycles to the edge at which `cmd_ready` is 1 again, `n - 1` edges lie between. FINISH is in
progress until `rsp_valid` rises, and the edge at which the host takes the response comes after: with a host
that is always ready `T_FINISH(p)` is the compressions, `finishBeyond p`, and one. That least length, the
compressions and one edge for the response, the padding writes having no least number of cycles, is the model's
choice, since R150 gives neither the writes nor the wait a number (log 9). -/
def occupancy (i : Instr) (s : State) : Nat :=
  match i with
  | .reset => s.latency.extraReset
  | .push _ =>
    if s.consumed then s.latency.misusePush
    else if s.filled = 63#7 then s.latency.extraPush + 1 + s.latency.extraCompress
    else s.latency.extraPush
  | .finish =>
    if s.consumed then s.latency.misuseFinish
    else finishBlocks s.filled * (s.latency.extraCompress + 1) - 1 + s.latency.finishBeyond s.filled.toNat

/-- The accepted command stays in progress for `n` more edges (R150). -/
def occupy (n : Nat) (s : State) : State := { s with busy := n }

end Sys2Proof.Machine
end

