-- ==== Sys2Proof/Machine/Edge.lean ====
section
/-! DEFINITION. One rising edge of `clk`: acceptance of a command with its whole effect (R27, R51), or
whatever else the edge is. -/

namespace Sys2Proof.Machine

/-- Accept a command word: decode it, give it its whole effect, and let it be in progress for its latency
(R51, R27). A reserved word has no meaning (R48). -/
def acceptCommand (w : CmdWord) (s : State) : Host.Outcome State Fault Refusal :=
  match decode w with
  | .error _ => .refused (.reservedWord w)
  | .ok i =>
    match exec i (releaseHeld s) with
    | .next t => .next (occupy (occupancy i s) t)
    | .fault f => .fault f
    | .refused r => .refused r

/-- What the core does at one rising edge. -/
def edge (e : PortIn) (s : State) : Host.Outcome State Fault Refusal :=
  match portEvent e s with
  | .hardwareReset => .next (hardwareReset s)
  | .unstable w => .refused (.unstableCommand w)
  | .inProgress => .next (keepPresented e (passBusyEdge s))
  | .deliver x => .next (keepPresented e (takeResponse x s))
  | .stall => .next (keepPresented e s)
  | .accept w => acceptCommand w s
  | .idle => .next (keepPresented e s)

/-- The input ports at the next rising edge: what the host drives, or nothing (log 1). -/
def State.nextEdge (s : State) : PortIn := s.drive.headD idleEdge

/-- The edge has gone by. -/
def dropEdge (s : State) : State := { s with drive := s.drive.tail }

/-- Put one edge where the next step reads it. -/
def placeEdge (e : PortIn) (s : State) : State := { s with drive := e :: s.drive.tail }

/-- The core is idle, and the host has presented nothing before: what acceptance at the next edge
needs. -/
def makeReady (s : State) : State := { s with busy := 0, rsp := none, held := none }

end Sys2Proof.Machine
end

