-- ==== Sys2Proof/Machine/Step.lean ====
section
/-! DEFINITION. One step of the machine is one rising edge of `clk` (assumption log 1), and where the next
step finds its command (log 13). -/

namespace Sys2Proof.Machine

/-- One step: the input ports of the next edge are sampled and the core does what that edge is for it. -/
def step (s : State) : Host.Outcome State Fault Refusal := edge s.nextEdge (dropEdge s)

/-- `s` with the command word `w` presented at the next edge and the core ready to accept it there. A
number that is no 10-bit word cannot be driven on the command port: nothing is placed. -/
def State.withFetchWord (s : State) (_nbits w : Nat) : State :=
  if w < 1024 then makeReady (placeEdge (commandEdge (BitVec.ofNat 10 w)) s) else s

end Sys2Proof.Machine
end

