-- ==== Sys2Proof/Machine/Convenience.lean ====
section
/-! DEFINITION. The pseudo-commands as sequences of commands (spec/30_encoding.md R56,
spec/44_convenience.md R110, R112), and the source's block-copy form of UPDATE (spec/41_update.md R67).
The core never sees a pseudo-command. -/

namespace Sys2Proof.Machine

/-- What a host does between commands: apply hardware reset, or issue a command. -/
inductive HostOp where
  | new
  | cmd (i : Instr)
  deriving DecidableEq, Repr

/-- The pseudo-commands (R56). -/
inductive Pseudo where
  | update (data : List Byte)
  | digest (data : List Byte)
  | write (data : List Byte)
  | flush
  | new
  deriving DecidableEq, Repr

/-- One PUSH per byte, in order (R67). -/
def pushes (data : List Byte) : List HostOp := data.map fun d => .cmd (.push d)

/-- The expansion of a pseudo-command (R56, R67, R110, R112). -/
def Pseudo.expand : Pseudo → List HostOp
  | .update data => pushes data
  | .digest data => .cmd .reset :: (pushes data ++ [.cmd .finish])
  | .write data => pushes data
  | .flush => []
  | .new => [.new]

/-- `for k: BUF[a + k] <- d[k]` (R67). -/
def copyBytes (a : Nat) (data : List Byte) (s : State) : State := { s with buf := Memory.writeBytes s.buf a data }

/-- The remainder of the input, which fits, is copied in at FILLED (R67). -/
def copyRest (data : List Byte) (s : State) : State :=
  { copyBytes s.filled.toNat data s with filled := s.filled + BitVec.ofNat 7 data.length }

/-- The loop of R67: while the remaining input reaches the end of the block, fill it and compress it. Each
turn takes at least one byte, so one more turn than there are bytes is enough. -/
def updateLoop : Nat → List Byte → State → State
  | 0, _, s => s
  | fuel + 1, data, s =>
    let free := blockSize - s.filled.toNat
    if free ≤ data.length then
      updateLoop fuel (data.drop free)
        (clearFilled (compress (copyBytes s.filled.toNat (data.take free) s)))
    else copyRest data s

/-- UPDATE by the source's block-copy algorithm (R67), as a function of a model over whole sequences; the core
runs PUSH commands. Two points are the model's choice: the working registers stay as the last round computed
them, where U8 leaves them any value (log 24); and CONSUMED is not looked at, where R141 makes every PUSH on a
consumed state a draw (log 25). -/
def updateByBlocks (data : List Byte) (s : State) : State := updateLoop (data.length + 1) data s

end Sys2Proof.Machine
end

