-- ==== Sys2Proof/Machine/Assembler.lean ====
section
/-! DEFINITION. The assembler syntax of spec/30_encoding.md R55 and R56: one line of text to the host
operations it stands for. What the two rules leave open about spaces, digits and letters is in assumption
log 20. -/

namespace Sys2Proof.Machine

/-- The pieces of a line. -/
inductive Token where
  | word (cs : List Char)
  | chr (c : Char)
  | str (cs : List Char)
  deriving DecidableEq, Repr

/-- Where the reader of a line stands: between pieces, in a word, in a quoted string. -/
inductive ReadMode where
  | gap
  | word (rev : List Char)
  | str (rev : List Char)
  deriving DecidableEq, Repr

/-- The quote of a character. -/
def apostrophe : Char := Char.ofNat 39

/-- The quote of a string. -/
def quoteMark : Char := Char.ofNat 34

/-- Space or tab. -/
def isBlank (c : Char) : Bool := c == ' ' || c == Char.ofNat 9

/-- The pieces of a line, up to the comment that `;` starts (R55). The model's choice (log 20), since the spec
gives no lexical rule: a quoted character or string ends with its closing quote and needs no blank after it,
while a word ends only at a blank, a `;` or the end of the line, so that a quote inside a word is one more of
its characters. -/
def tokenize : List Char → ReadMode → Option (List Token)
  | [], .gap => some []
  | [], .word r => some [.word r.reverse]
  | [], .str _ => none
  | c :: cs, .gap =>
    if isBlank c then tokenize cs .gap
    else if c == ';' then some []
    else if c == quoteMark then tokenize cs (.str [])
    else if c == apostrophe then
      match cs with
      | x :: y :: rest => if y == apostrophe then (tokenize rest .gap).map (Token.chr x :: ·) else none
      | _ => none
    else tokenize cs (.word [c])
  | c :: cs, .word r =>
    if isBlank c then (tokenize cs .gap).map (Token.word r.reverse :: ·)
    else if c == ';' then some [.word r.reverse]
    else tokenize cs (.word (c :: r))
  | c :: cs, .str r =>
    if c == quoteMark then (tokenize cs .gap).map (Token.str r.reverse :: ·)
    else tokenize cs (.str (c :: r))

/-- The value of a digit, decimal or hexadecimal. -/
def digitValue (c : Char) : Option Nat :=
  if '0' ≤ c ∧ c ≤ '9' then some (c.toNat - 48)
  else if 'A' ≤ c ∧ c ≤ 'F' then some (c.toNat - 55)
  else if 'a' ≤ c ∧ c ≤ 'f' then some (c.toNat - 87)
  else none

/-- The number that digits of a base write; none when one is no digit of the base. -/
def numberValue (base : Nat) : List Char → Nat → Option Nat
  | [], n => some n
  | c :: cs, n =>
    match digitValue c with
    | some v => if v < base then numberValue base cs (n * base + v) else none
    | none => none

/-- A number 0 to 255 as a byte. -/
def byteOfNat (n : Nat) : Option Byte := if n < 256 then some (BitVec.ofNat 8 n) else none

/-- An ASCII character as a byte (R55). -/
def byteOfChar (c : Char) : Option Byte := if c.toNat < 128 then some (BitVec.ofNat 8 c.toNat) else none

/-- `<byte>`: `0x00` to `0xFF`, a decimal 0 to 255, or a quoted ASCII character (R55). -/
def parseByte : Token → Option Byte
  | .word ('0' :: 'x' :: c :: cs) => (numberValue 16 (c :: cs) 0).bind byteOfNat
  | .word (c :: cs) => (numberValue 10 (c :: cs) 0).bind byteOfNat
  | .word [] => none
  | .chr c => byteOfChar c
  | .str _ => none

/-- `<b0> <b1> ... <bn-1>` or one quoted string (R56). -/
def parseBytes : List Token → Option (List Byte)
  | [.str cs] => cs.mapM byteOfChar
  | ts => ts.mapM parseByte

/-- One line: a command (R55), a pseudo-command (R56), or nothing; none when it is no line of the syntax. -/
def parseLine (line : List Char) : Option (List HostOp) :=
  match tokenize line .gap with
  | none => none
  | some [] => some []
  | some (.word m :: args) =>
    if m = "RESET".toList then (if args.isEmpty then some [.cmd .reset] else none)
    else if m = "FINISH".toList then (if args.isEmpty then some [.cmd .finish] else none)
    else if m = "PUSH".toList then
      match args with
      | [t] => (parseByte t).map fun d => [.cmd (.push d)]
      | _ => none
    else if m = "UPDATE".toList then (parseBytes args).map fun bs => (Pseudo.update bs).expand
    else if m = "DIGEST".toList then (parseBytes args).map fun bs => (Pseudo.digest bs).expand
    else if m = "WRITE".toList then (parseBytes args).map fun bs => (Pseudo.write bs).expand
    else if m = "FLUSH".toList then (if args.isEmpty then some Pseudo.flush.expand else none)
    else if m = "NEW".toList then (if args.isEmpty then some Pseudo.new.expand else none)
    else none
  | some (.chr _ :: _) => none
  | some (.str _ :: _) => none

/-- A text of several lines, in order (R55: one command per line). -/
def assemble (lines : List (List Char)) : Option (List HostOp) := (lines.mapM parseLine).map List.flatten

end Sys2Proof.Machine
end

