-- ==== Sys2Proof/Machine/Reference.lean ====
section
/-! DEFINITION. SHA-1 as pure functions of bytes and words, without the machine: the block transformation as
a function (spec/42_compress.md R80, R88) and the padding law (spec/43_finish.md R105). The machine's
statements are compared with these; the machine itself does not use them. -/

namespace Sys2Proof.Machine

/-- A 64-byte block as a function of the index. -/
abbrev Block := Nat → Byte

/-- The word at `4j` of a block, big-endian (R30). -/
def Block.word (m : Block) (j : Nat) : Word := be32 (m (4 * j)) (m (4 * j + 1)) (m (4 * j + 2)) (m (4 * j + 3))

/-- The first `n` schedule words, the newest first, by the canonical recurrence that rotates by 1
(R79, R80). -/
def scheduleRev (m : Block) : Nat → List Word
  | 0 => []
  | n + 1 =>
    let prev := scheduleRev m n
    (if n < 16 then Block.word m n
     else rotl (prev.getD 2 0#32 ^^^ prev.getD 7 0#32 ^^^ prev.getD 13 0#32 ^^^ prev.getD 15 0#32) .one) :: prev

/-- Schedule word `w_t` of a block (R80, R88). -/
def scheduleWord (m : Block) (t : Nat) : Word := (scheduleRev m (t + 1)).headD 0#32

/-- One round on `(a, b, c, d, e)` with schedule word `w` (R84, R88). -/
def roundStep (t : Nat) (w : Word) (x : Hash) : Hash :=
  ⟨rotl x.h0 .five + roundF t x.h1 x.h2 x.h3 + x.h4 + roundK t + w, x.h0, rotl x.h1 .thirty, x.h2, x.h3⟩

/-- `(a_t, .., e_t)` after `n` rounds from `(a_-1, .., e_-1) = h` (R88). -/
def roundsFrom (m : Block) (h : Hash) : Nat → Hash
  | 0 => h
  | n + 1 => roundStep n (scheduleWord m n) (roundsFrom m h n)

/-- Word-wise addition of two five-word values (R85, R88). -/
def Hash.add (x y : Hash) : Hash := ⟨x.h0 + y.h0, x.h1 + y.h1, x.h2 + y.h2, x.h3 + y.h3, x.h4 + y.h4⟩

/-- The block transformation as a function (R88). It is not unfolded by unification, which would run all
the rounds. -/
@[irreducible] def compressHash (h : Hash) (m : Block) : Hash := Hash.add h (roundsFrom m h 80)

/-- The number of zero bytes after the terminator of a message of `m` bytes: `(55 - m) mod 64` (R105). -/
def zeroCount (m : Nat) : Nat := (55 + 64 - m % 64) % 64

/-- The 8 bytes of `8m mod 2^64`, big-endian (R105). -/
def lengthBytes (m : Nat) : List Byte := beBytes (BitVec.ofNat 64 (8 * m))

/-- The padded message (R105). -/
def padded (data : List Byte) : List Byte :=
  data ++ terminator :: (List.replicate (zeroCount data.length) 0#8 ++ lengthBytes data.length)

/-- Block `k` of a byte string. -/
def blockOf (bytes : List Byte) (k : Nat) : Block := fun i => bytes.getD (64 * k + i) 0#8

/-- The first `n` blocks of a byte string compressed in order, from `h`. -/
def chain (bytes : List Byte) (h : Hash) : Nat → Hash
  | 0 => h
  | n + 1 => compressHash (chain bytes h n) (blockOf bytes n)

/-- The SHA-1 digest of a message, as five words: the padded message compressed from IV, in
`(m + 72) div 64` blocks (R103, R105). -/
def sha1 (data : List Byte) : Hash := chain (padded data) iv ((data.length + 72) / 64)

end Sys2Proof.Machine
end

