-- ==== Sys2Proof/Machine/Runs.lean ====
section
/-! DEFINITION. Command sequences at the command level: the commands take effect in order, each wholly
before the next (spec/20_memory.md R41), and the host takes every response. -/

namespace Sys2Proof.Machine

/-- The host takes the response if one is pending (R53). -/
def takePending (s : State) : State :=
  match s.rsp with
  | some x => takeResponse x s
  | none => s

/-- One operation of the host, to completion, response delivered (R54). -/
def runOp (op : HostOp) (s : State) : Host.Outcome State Fault Refusal :=
  match op with
  | .new => .next (hardwareReset s)
  | .cmd i =>
    match exec i s with
    | .next t => .next (takePending t)
    | .fault f => .fault f
    | .refused r => .refused r

/-- A sequence of operations of the host, in order (R41). -/
def runOps : List HostOp → State → Host.Outcome State Fault Refusal
  | [], s => .next s
  | op :: ops, s =>
    match runOp op s with
    | .next t => runOps ops t
    | .fault f => .fault f
    | .refused r => .refused r

end Sys2Proof.Machine
end

