-- ==== Sys2Proof/Safety.lean ====
section
/-! DEFINITION. The terms in which statements speak of a state: the invariant of every state a run reaches,
a core that is ready, and what two states have in common (spec/10_state.md R14, R23). -/

namespace Sys2Proof.Machine

/-- What every step keeps, from hardware reset on. -/
structure State.Inv (s : State) : Prop where
  /-- The buffer's contents keep their canonical form. -/
  bufWf : Memory.wf s.buf = true
  /-- `FILLED < 64` between commands, consumed or not (R14a, R104, R141). -/
  filledBound : s.filled.toNat < 64
  /-- The index `T` is 0 to 79 (R17). -/
  indexBound : s.scratch.t.toNat < 80
  /-- A response is pending only after a FINISH (R52, R18). -/
  pendingConsumed : s.rsp.isSome = true → s.consumed = true
  /-- The draw that gives the buffer's unwritten bytes has been used up (log 2). -/
  bufDrawn : s.bufDraw < s.draws

/-- Ready to accept a command, and the host holds none (R51). -/
structure State.Ready (s : State) : Prop where
  notBusy : s.busy = 0
  noResponse : s.rsp = none
  notHeld : s.held = none

/-- The fresh condition of R24: as after NEW or RESET. -/
structure State.Fresh (s : State) : Prop where
  hash : s.h = iv
  filled : s.filled = 0#7
  nblk : s.nblk = 0#64
  notConsumed : s.consumed = false

/-- A command does nothing to the ports, the latencies or what the host has driven and taken (R27). -/
structure State.SameHostSide (s t : State) : Prop where
  busy : t.busy = s.busy
  latency : t.latency = s.latency
  drive : t.drive = s.drive
  held : t.held = s.held
  delivered : t.delivered = s.delivered

/-- A sequence of host operations that keeps R140: on a consumed state no PUSH and no FINISH before a RESET
or a hardware reset. `consumed` says whether the state is consumed when the sequence starts. -/
def disciplined (consumed : Bool) : List HostOp → Bool
  | [] => true
  | .new :: ops => disciplined false ops
  | .cmd .reset :: ops => disciplined false ops
  | .cmd (.push _) :: ops => !consumed && disciplined consumed ops
  | .cmd .finish :: ops => !consumed && disciplined true ops

/-- The block that FINISH compresses last or only, when FILLED is `p <= 55` (R38, one-block path). -/
def oneBlock (s : State) (p : Nat) (len : Long) : Block := fun i =>
  if i < p then s.byteAt i
  else if i = p then 0x80#8
  else if i < 56 then 0#8
  else beByte len (i - 56)

/-- The first of two padding blocks, when FILLED is `p`, 56 to 63 (R38). -/
def firstOfTwo (s : State) (p : Nat) : Block := fun i =>
  if i < p then s.byteAt i else if i = p then 0x80#8 else 0#8

/-- The second of two padding blocks (R38). -/
def secondOfTwo (len : Long) : Block := fun i => if i < 56 then 0#8 else beByte len (i - 56)

/-- The block in the buffer, as a function of the index (R30). -/
def State.block (s : State) : Block := fun i => s.byteAt i

/-- Two states that a host cannot tell apart by what the core answers (R23, R39): the same H, FILLED and
NBLK, neither consumed, and the same valid bytes; stale bytes, scratch and LENREG may differ. -/
structure State.Alike (s t : State) : Prop where
  hash : s.h = t.h
  filled : s.filled = t.filled
  nblk : s.nblk = t.nblk
  notConsumed : s.consumed = false ∧ t.consumed = false
  validBytes : ∀ i, i < s.filled.toNat → s.byteAt i = t.byteAt i

end Sys2Proof.Machine
end

