-- ==== Sys2Proof/Certificates/Slice0/Obligations.lean ====
section
/-! DEFINITION. The statements about the machine, each from a numbered rule of spec/. -/

open Sys2Proof Sys2Proof.Machine

/-! ### Command words -/

/-- R46: which command a word selects, by mask and match, and the byte a PUSH carries, which is the word's
bits 7..0 unchanged; and how the 1024 words divide. -/
def Obligations.WordsSelectCommandsByMaskAndMatch : Prop :=
  (∀ w : CmdWord,
    (decode w = .ok .reset ↔ w &&& 0x3FF#10 = 0x000#10) ∧
    (∀ d : Byte, decode w = .ok (.push d) ↔
      w &&& 0x300#10 = 0x100#10 ∧ ∀ i, i < 8 → d.getLsbD i = w.getLsbD i) ∧
    (decode w = .ok .finish ↔ w &&& 0x3FF#10 = 0x200#10)) ∧
  ((List.range 1024).filter fun n => decide (decode (BitVec.ofNat 10 n) = .ok .reset)).length = 1 ∧
  ((List.range 1024).filter fun n =>
    decide (decode (BitVec.ofNat 10 n) = .ok (.push (BitVec.ofNat 8 n)))).length = 256 ∧
  ((List.range 1024).filter fun n => decide (decode (BitVec.ofNat 10 n) = .ok .finish)).length = 1

/-- Words of R46, R49 and R55 written out bit by bit, bit 9 first. -/
def Obligations.DecodeReadsWrittenOutWords : Prop :=
  decode 0b0000000000#10 = .ok .reset ∧
  decode 0b0101100001#10 = .ok (.push 0x61#8) ∧
  decode 0b0100000000#10 = .ok (.push 0x00#8) ∧
  decode 0b0111111111#10 = .ok (.push 0xFF#8) ∧
  decode 0b0110000000#10 = .ok (.push 0x80#8) ∧
  decode 0b1000000000#10 = .ok .finish

/-- Decode and encode agree in both directions, for every command and every word (R46, R48): a word decodes
to a command exactly when it is that command's encoding, and it decodes to some command exactly when it is
legal. -/
def Obligations.DecodeEncodeAgree : Prop :=
  (∀ (w : CmdWord) (i : Instr), decode w = .ok i ↔ w = encode i) ∧
  (∀ i : Instr, CmdWord.legal (encode i) = true) ∧
  (∀ w : CmdWord, (∃ i, decode w = .ok i) ↔ CmdWord.legal w = true)

/-- R48: the three reserved ranges, 766 words in all, have no step: a core that would accept one refuses. -/
def Obligations.ReservedWordsRefused : Prop :=
  (∀ (w : CmdWord) (s : State),
    (0x300 ≤ w.toNat ∨ (0x001 ≤ w.toNat ∧ w.toNat ≤ 0x0FF) ∨ (0x201 ≤ w.toNat ∧ w.toNat ≤ 0x2FF)) →
    s.busy = 0 → s.rsp = none → (s.held = none ∨ s.held = some w) →
    s.nextEdge.rst = false → s.nextEdge.cmdValid = true → s.nextEdge.cmdWord = w →
    step s = .refused (.reservedWord w)) ∧
  ((List.range 1024).filter fun n => !CmdWord.legal (BitVec.ofNat 10 n)).length = 766

/-! ### Steps -/

/-- A step runs the decoded command (R51, R27): at an edge without `rst` at which a ready core is presented
a word that decodes, the step is the command's whole effect, and then the command stays in progress for
its latency (that latencies are data of the state is the model's choice, log 9). -/
def Obligations.StepRunsDecodedCommand : Prop :=
  ∀ (s : State) (w : CmdWord) (i : Instr),
    s.busy = 0 → s.rsp = none → (s.held = none ∨ s.held = some w) →
    s.nextEdge.rst = false → s.nextEdge.cmdValid = true → s.nextEdge.cmdWord = w →
    decode w = .ok i →
    step s = match exec i { s with drive := s.drive.tail, held := none } with
      | .next t => .next { t with busy := occupancy i s }
      | .fault f => .fault f
      | .refused r => .refused r

/-- R60, R137: at an edge with `rst = 1`, whatever the state, whatever is in progress and whatever else the
host drives, the core comes to the state of NEW, ready for a command; a pending response is dropped, not
delivered. Three clauses are the model's choice: that nothing is held after the edge, so that the host may
present another word (log 10); that what the host has taken stays (log 16); that the latencies and the edges
still to come stay (log 23). -/
def Obligations.HardwareResetStep : Prop :=
  ∀ s : State, s.nextEdge.rst = true →
    ∃ t, step s = .next t ∧
      t.filled = 0#7 ∧ t.nblk = 0#64 ∧
      t.h = ⟨0x67452301#32, 0xEFCDAB89#32, 0x98BADCFE#32, 0x10325476#32, 0xC3D2E1F0#32⟩ ∧
      t.consumed = false ∧ t.busy = 0 ∧ t.rsp = none ∧ t.held = none ∧
      t.delivered = s.delivered ∧ t.latency = s.latency ∧ t.drive = s.drive.tail ∧
      t.cmdReady false = true ∧ t.rspValid false = false

/-- R51, R53, R136: the output ports. `cmd_ready` is 1 exactly when no command is in progress and no
response waits; `rsp_valid` is 1 exactly when a response waits, and `rsp_digest` is then that response;
both are 0 while `rst` is 1. -/
def Obligations.OutputPortsFollowState : Prop :=
  ∀ s : State,
    (s.ports true).cmdReady = false ∧ (s.ports true).rspValid = false ∧
    ((s.ports false).cmdReady = true ↔ s.busy = 0 ∧ s.rsp = none) ∧
    ((s.ports false).rspValid = true ↔ s.busy = 0 ∧ ∃ x, s.rsp = some x) ∧
    (∀ x, s.busy = 0 → s.rsp = some x → (s.ports false).rspDigest = x)

/-- R51: a command presented while the core is busy waits and is not lost. The edges for which the core
stays busy go by, the host presenting the word at each; afterwards nothing has changed but that the core
is no longer busy and the word is held. -/
def Obligations.PresentedCommandWaits : Prop :=
  ∀ (s : State) (w : CmdWord) (front rest : List PortIn),
    s.drive = front ++ rest → front.length = s.busy →
    (∀ e ∈ front, e.rst = false ∧ e.cmdValid = true ∧ e.cmdWord = w) →
    (s.held = none ∨ s.held = some w) →
    Host.Core.run Sys2Proof.core s.busy s =
      .next { s with busy := 0, drive := rest, held := if s.busy = 0 then s.held else some w }

/-- R53, R54: the core holds the response unchanged, and accepts nothing, until the host is ready; at that
edge the response is delivered once. A command presented at either edge is not accepted there. The delivery completes
FINISH, and LENREG is a new free value from then on (R17; that it is drawn at this edge is the model's choice,
log 5). -/
def Obligations.ResponseHeldUntilTaken : Prop :=
  ∀ (s : State) (x : Digest),
    s.busy = 0 → s.rsp = some x → s.nextEdge.rst = false →
    (s.held = none ∨ s.held = s.nextEdge.presented) →
    (s.nextEdge.rspReady = false →
      step s = .next { s with drive := s.drive.tail, held := s.nextEdge.presented }) ∧
    (s.nextEdge.rspReady = true →
      step s = .next { s with
        drive := s.drive.tail, held := s.nextEdge.presented,
        draws := s.draws + 1, lenreg := Config.freeLenreg s.draws,
        rsp := none, delivered := s.delivered ++ [x] })

/-- R130: an idle core to which nothing is presented keeps all its state. -/
def Obligations.IdleCoreKeepsState : Prop :=
  ∀ s : State, s.busy = 0 → s.rsp = none → s.held = none →
    s.nextEdge.rst = false → s.nextEdge.cmdValid = false →
    step s = .next { s with drive := s.drive.tail }

/-- R51, R147: a host that does not hold its word until acceptance is refused. -/
def Obligations.UnstableCommandRefused : Prop :=
  ∀ (s : State) (w : CmdWord), s.held = some w → s.nextEdge.rst = false →
    (s.nextEdge.cmdValid = false ∨ s.nextEdge.cmdWord ≠ w) →
    step s = .refused (.unstableCommand w)

/-- R149: liveness. From every state, with a host that takes the response and presents nothing, the core is
ready for a command after finitely many edges: those for which it is busy, and one for the response. -/
def Obligations.CoreBecomesReady : Prop :=
  ∀ (s : State) (n : Nat) (rest : List PortIn),
    s.held = none → n = s.busy + (if s.rsp.isSome then 1 else 0) →
    s.drive = List.replicate n takeEdge ++ rest →
    ∃ t, Host.Core.run Sys2Proof.core n s = .next t ∧ t.cmdReady false = true ∧
      t.drive = rest ∧ t.held = none ∧ t.delivered = s.delivered ++ s.rsp.toList

/-- R54, R147: a host that never raises `rsp_ready` stalls the core: for any number of edges nothing
changes, and the core is not ready. -/
def Obligations.HostStallsCore : Prop :=
  ∀ (n : Nat) (s : State) (x : Digest) (rest : List PortIn),
    s.busy = 0 → s.rsp = some x → s.held = none →
    s.drive = List.replicate n idleEdge ++ rest →
    Host.Core.run Sys2Proof.core n s = .next { s with drive := rest } ∧ s.cmdReady false = false

/-- R41, R54: the ports carry a command to completion. A command presented to a ready core, followed by the
edges for which it is in progress and, for FINISH, the edge that takes the response, comes to the same
state as the command at the command level with its response taken, and the core is ready again. -/
def Obligations.PortsCarryCommandToCompletion : Prop :=
  ∀ (i : Instr) (s t : State) (rest : List PortIn),
    s.Ready →
    s.drive = commandEdge (encode i) ::
      (List.replicate (occupancy i s + (if i = .finish then 1 else 0)) takeEdge ++ rest) →
    runOp (.cmd i) { s with drive := rest } = .next t →
    Host.Core.run Sys2Proof.core (1 + occupancy i s + (if i = .finish then 1 else 0)) s = .next t ∧ t.Ready

/-! ### Reset and invariants -/

/-- R25: the state after hardware reset, where the spec gives a value. -/
def Obligations.StateAfterHardwareReset : Prop :=
  State.reset.h = ⟨0x67452301#32, 0xEFCDAB89#32, 0x98BADCFE#32, 0x10325476#32, 0xC3D2E1F0#32⟩ ∧
  State.reset.filled = 0#7 ∧ State.reset.nblk = 0#64 ∧ State.reset.consumed = false ∧
  State.reset.cmdReady false = true ∧ State.reset.rspValid false = false

/-- The invariant holds after hardware reset. -/
def Obligations.ResetMeetsInvariant : Prop := State.reset.Inv

/-- Every step keeps the invariant: the buffer's canonical form, `FILLED < 64` between commands (R14a), `T`
in 0..79 (R17), a response pending only on a consumed state (R18, R52); draws not used twice is the model's own
clause (log 2). -/
def Obligations.StepKeepsInvariant : Prop :=
  ∀ s t : State, s.Inv → step s = .next t → t.Inv

/-- R120: the hardware raises nothing. No step from a state that satisfies the invariant faults. -/
def Obligations.StepNeverFaults : Prop :=
  ∀ (s : State) (f : Fault), s.Inv → step s ≠ .fault f

/-- Where the model faults (its own choice, assumption log 11; R12: FILLED of 65 to 127 never occurs, and 64
not between commands): a PUSH or FINISH on a state that is not consumed with FILLED at 64 or more. -/
def Obligations.BufferIndexOutOfRangeFaults : Prop :=
  ∀ (s : State) (d : Byte), s.consumed = false → 64 ≤ s.filled.toNat →
    exec (.push d) s = .fault (.noBufferByte s.filled.toNat) ∧
    exec .finish s = .fault (.noBufferByte s.filled.toNat)

/-! ### RESET -/

/-- R61: RESET completes from every state, with the initial values and no response. That every byte of the
buffer is unchanged is the model's choice (log 8, following D8): R61 lets an implementation clear it. -/
def Obligations.ResetGivesInitialValues : Prop :=
  ∀ s : State, ∃ t, exec .reset s = .next t ∧
    t.filled = 0#7 ∧ t.nblk = 0#64 ∧
    t.h = ⟨0x67452301#32, 0xEFCDAB89#32, 0x98BADCFE#32, 0x10325476#32, 0xC3D2E1F0#32⟩ ∧
    t.consumed = false ∧ t.rsp = s.rsp ∧ (∀ a, t.byteAt a = s.byteAt a) ∧ s.SameHostSide t

/-- R62: for every state (consumed or not) and every command sequence that keeps R140, the responses of
`RESET; p` equal the responses of `p` from the state after hardware reset. -/
def Obligations.ResetEquivalence : Prop :=
  ∀ (s : State) (p : List HostOp), s.rsp = none → disciplined false p = true →
    ∃ t u, runOps (.cmd .reset :: p) s = .next t ∧ runOps p State.reset = .next u ∧
      t.delivered = s.delivered ++ u.delivered

/-! ### PUSH -/

/-- R65: PUSH, for every `FILLED` between commands. The byte is stored at FILLED and no other byte of the
buffer changes. With `FILLED < 63` FILLED counts up, and H, NBLK and the scratch registers are unchanged; with
`FILLED = 63` the block is compressed, the counter counts it modulo 2^64 and FILLED is 0. The response and the
host's side are unchanged. On a consumed state the command completes. Two clauses are the model's choice, as
R15 to R17 leave these registers unspecified between commands: that the scratch registers stay at a PUSH that
does not compress (log 4), and that LENREG stays (log 5). -/
def Obligations.PushAbsorbsByte : Prop :=
  ∀ (s : State) (d : Byte),
    (s.consumed = false → s.filled.toNat < 64 →
      ∃ t, exec (.push d) s = .next t ∧
        t.byteAt s.filled.toNat = d ∧ (∀ a, a ≠ s.filled.toNat → t.byteAt a = s.byteAt a) ∧
        (s.filled.toNat < 63 →
          t.filled.toNat = s.filled.toNat + 1 ∧ t.h = s.h ∧ t.nblk = s.nblk ∧ t.scratch = s.scratch) ∧
        (s.filled.toNat = 63 →
          t.filled.toNat = 0 ∧ t.h = compressHash s.h t.block ∧
          t.nblk.toNat = (s.nblk.toNat + 1) % 2 ^ 64) ∧
        t.lenreg = s.lenreg ∧ t.consumed = false ∧ t.rsp = s.rsp ∧ s.SameHostSide t) ∧
    (s.consumed = true → ∃ t, exec (.push d) s = .next t)

/-- R66: a PUSH leaves `FILLED < 64` and adds 8 to `NBLK * 512 + 8 * FILLED`, as numbers while the counter
does not wrap. -/
def Obligations.PushAddsEightBits : Prop :=
  ∀ (s : State) (d : Byte), s.consumed = false → s.filled.toNat < 64 → s.nblk.toNat < 2 ^ 64 - 1 →
    ∃ t, exec (.push d) s = .next t ∧ t.filled.toNat < 64 ∧
      t.nblk.toNat * 512 + 8 * t.filled.toNat = s.nblk.toNat * 512 + 8 * s.filled.toNat + 8

/-- R70: what the state is after any bytes are pushed on a fresh state: FILLED and NBLK, H the compression in
order of every whole block from IV, the valid bytes the last FILLED bytes pushed (R14), and every other byte of
the buffer the stale one of the block before, or the one that was there. -/
def Obligations.AbsorbedMessage : Prop :=
  ∀ (s : State) (data : List Byte), s.Fresh → s.rsp = none →
    ∃ t, runOps (pushes data) s = .next t ∧ t.consumed = false ∧
      t.filled.toNat = data.length % 64 ∧ t.nblk = BitVec.ofNat 64 (data.length / 64) ∧
      t.h = chain data iv (data.length / 64) ∧
      (∀ i, i < data.length % 64 → t.byteAt i = data.getD (64 * (data.length / 64) + i) 0#8) ∧
      (∀ i, data.length % 64 ≤ i → i < 64 →
        t.byteAt i =
          if data.length < 64 then s.byteAt i else data.getD (64 * (data.length / 64 - 1) + i) 0#8) ∧
      t.rsp = none ∧ s.SameHostSide t

/-- R68: UPDATE by the source's block-copy algorithm and UPDATE by PUSH commands give the same H, NBLK,
FILLED and the same bytes of the buffer, stale ones included. -/
def Obligations.BlockCopyUpdateEqualsPushes : Prop :=
  ∀ (s : State) (data : List Byte), s.consumed = false → s.filled.toNat < 64 → s.rsp = none →
    ∃ t, runOps (pushes data) s = .next t ∧
      t.h = (updateByBlocks data s).h ∧ t.nblk = (updateByBlocks data s).nblk ∧
      t.filled = (updateByBlocks data s).filled ∧ t.consumed = false ∧
      (∀ a, t.byteAt a = (updateByBlocks data s).byteAt a)

/-- R69: however a message is split into pieces, empty ones included, feeding the pieces one after the other
by the block-copy algorithm gives the same H, NBLK, FILLED and buffer as feeding it whole, and FINISH then
gives the same response. -/
def Obligations.ChunkingInvariance : Prop :=
  ∀ (s : State) (pieces : List (List Byte)), s.consumed = false → s.filled.toNat < 64 →
    let t := pieces.foldl (fun s piece => updateByBlocks piece s) s
    let u := updateByBlocks pieces.flatten s
    t.h = u.h ∧ t.nblk = u.nblk ∧ t.filled = u.filled ∧ (∀ a, t.byteAt a = u.byteAt a) ∧
    ∃ t' u' x, exec .finish t = .next t' ∧ exec .finish u = .next u' ∧ t'.rsp = some x ∧ u'.rsp = some x

/-! ### COMPRESS -/

/-- R76: `rotl32` by 1 to 31 moves bit `i` to bit `(i + n) mod 32`, distributes over exclusive or, and twice
by 1 is once by 2; the amounts used are 1, 2, 5 and 30. -/
def Obligations.RotationMovesBits : Prop :=
  (∀ (x : Word) (n i : Nat), 1 ≤ n → n ≤ 31 → i < 32 →
    (rotl32 x n).getLsbD ((i + n) % 32) = x.getLsbD i) ∧
  (∀ (x y : Word) (n : Nat), 1 ≤ n → n ≤ 31 → rotl32 (x ^^^ y) n = rotl32 x n ^^^ rotl32 y n) ∧
  (∀ x : Word, rotl32 (rotl32 x 1) 1 = rotl32 x 2) ∧
  (∀ (x : Word) (r : RotAmount), rotl x r = rotl32 x 1 ∨ rotl x r = rotl32 x 2 ∨
    rotl x r = rotl32 x 5 ∨ rotl x r = rotl32 x 30)

/-- R77, R85: addition is modulo 2^32, the carry dropped; so is each of the five additions of ADDBACK. -/
def Obligations.AddbackAddsModulo : Prop :=
  (∀ x y : Word, (add32 x y).toNat = (x.toNat + y.toNat) % 2 ^ 32) ∧
  (∀ (h : Hash) (x : Scratch),
    (addback h x).h0.toNat = (h.h0.toNat + x.a.toNat) % 2 ^ 32 ∧
    (addback h x).h1.toNat = (h.h1.toNat + x.b.toNat) % 2 ^ 32 ∧
    (addback h x).h2.toNat = (h.h2.toNat + x.c.toNat) % 2 ^ 32 ∧
    (addback h x).h3.toNat = (h.h3.toNat + x.d.toNat) % 2 ^ 32 ∧
    (addback h x).h4.toNat = (h.h4.toNat + x.e.toNat) % 2 ^ 32) ∧
  (∀ s : State, (compress s).h = addback s.h (rounds (schedule (loadw s))))

/-- R81: the round function, bit by bit, in the four groups of twenty rounds. -/
def Obligations.RoundFunctionBits : Prop :=
  ∀ (t : Nat) (b c d : Word) (i : Nat), t < 80 → i < 32 →
    (roundF t b c d).getLsbD i =
      if t < 20 then (if b.getLsbD i then c.getLsbD i else d.getLsbD i)
      else if t < 40 then ((b.getLsbD i ^^ c.getLsbD i) ^^ d.getLsbD i)
      else if t < 60 then
        (b.getLsbD i && c.getLsbD i || b.getLsbD i && d.getLsbD i || c.getLsbD i && d.getLsbD i)
      else ((b.getLsbD i ^^ c.getLsbD i) ^^ d.getLsbD i)

/-- R82: the round constants. -/
def Obligations.RoundConstants : Prop :=
  ∀ t : Nat, t < 80 →
    roundK t = if t < 20 then 0x5A827999#32 else if t < 40 then 0x6ED9EBA1#32
      else if t < 60 then 0x8F1BBCDC#32 else 0xCA62C1D6#32

/-- R78, R30: LOADW reads the buffer as sixteen big-endian words and loads the working registers from H. -/
def Obligations.LoadBigEndianWords : Prop :=
  ∀ s : State,
    (∀ j, j < 16 → ((loadw s).wAt j).toNat =
      (s.byteAt (4 * j)).toNat * 2 ^ 24 + (s.byteAt (4 * j + 1)).toNat * 2 ^ 16 +
        (s.byteAt (4 * j + 2)).toNat * 2 ^ 8 + (s.byteAt (4 * j + 3)).toNat) ∧
    (loadw s).a = s.h.h0 ∧ (loadw s).b = s.h.h1 ∧ (loadw s).c = s.h.h2 ∧
    (loadw s).d = s.h.h3 ∧ (loadw s).e = s.h.h4

/-- R79, R80: the schedule that COMPRESS computes, over any sixteen loaded words: the single-rotate form for
16 to 31, the rotate-by-2 form for 32 to 79, the canonical recurrence for all sixty-four; the loaded words
and the working registers stay as they were. -/
def Obligations.ScheduleIsCanonical : Prop :=
  ∀ x : Scratch,
    (∀ i, 16 ≤ i → i < 80 →
      (schedule x).wAt i = rotl32 ((schedule x).wAt (i - 3) ^^^ (schedule x).wAt (i - 8) ^^^
        (schedule x).wAt (i - 14) ^^^ (schedule x).wAt (i - 16)) 1) ∧
    (∀ i, 32 ≤ i → i < 80 →
      (schedule x).wAt i = rotl32 ((schedule x).wAt (i - 6) ^^^ (schedule x).wAt (i - 16) ^^^
        (schedule x).wAt (i - 28) ^^^ (schedule x).wAt (i - 32)) 2) ∧
    (∀ j, j < 16 → (schedule x).wAt j = x.wAt j) ∧
    (schedule x).a = x.a ∧ (schedule x).b = x.b ∧ (schedule x).c = x.c ∧ (schedule x).d = x.d ∧
    (schedule x).e = x.e

/-- R84: a round is the simultaneous update of A..E from their old values; `W` is unchanged. -/
def Obligations.RoundUpdatesWorkingRegisters : Prop :=
  ∀ (t : Nat) (x : Scratch),
    ((round t x).a).toNat = ((rotl32 x.a 5).toNat + (roundF t x.b x.c x.d).toNat + x.e.toNat +
      (roundK t).toNat + (x.wAt t).toNat) % 2 ^ 32 ∧
    (round t x).tmp = (round t x).a ∧ (round t x).b = x.a ∧ (round t x).c = rotl32 x.b 30 ∧
    (round t x).d = x.c ∧ (round t x).e = x.d ∧ (round t x).w = x.w

/-- R88: COMPRESS is the block function: the new H is that of eighty rounds over the canonical schedule of the
sixty-four bytes, added back to the old H; and so it is round by round: after the first `n` rounds the machine's
registers A..E are those of the recurrence. And the pipeline property, of the machine's registers and of the
recurrence: B to E are delayed copies of A. -/
def Obligations.CompressIsBlockFunction : Prop :=
  (∀ s : State, (compress s).h = compressHash s.h s.block) ∧
  (∀ (s : State) (n : Nat), n ≤ 80 →
    (firstRounds n (schedule (loadw s))).working = roundsFrom s.block s.h n) ∧
  (∀ (x : Scratch) (n : Nat),
    (firstRounds (n + 1) x).b = (firstRounds n x).a ∧
    (firstRounds (n + 2) x).c = rotl32 (firstRounds n x).a 30 ∧
    (firstRounds (n + 3) x).d = rotl32 (firstRounds n x).a 30 ∧
    (firstRounds (n + 4) x).e = rotl32 (firstRounds n x).a 30) ∧
  (∀ (m : Block) (h : Hash) (n : Nat),
    (roundsFrom m h (n + 1)).h1 = (roundsFrom m h n).h0 ∧
    (roundsFrom m h (n + 2)).h2 = rotl32 (roundsFrom m h n).h0 30 ∧
    (roundsFrom m h (n + 3)).h3 = rotl32 (roundsFrom m h n).h0 30 ∧
    (roundsFrom m h (n + 4)).h4 = rotl32 (roundsFrom m h n).h0 30)

/-- R75, R86: COMPRESS increments NBLK by 1 modulo 2^64 and changes nothing but H, NBLK and the working
registers; the new H depends on the old H and the sixty-four bytes alone. -/
def Obligations.CompressFrame : Prop :=
  (∀ s : State, (compress s).nblk.toNat = (s.nblk.toNat + 1) % 2 ^ 64 ∧
    { compress s with h := s.h, nblk := s.nblk, scratch := s.scratch } = s) ∧
  (∀ s t : State, s.h = t.h → (∀ i, i < 64 → s.byteAt i = t.byteAt i) → (compress s).h = (compress t).h)

/-! ### FINISH -/

/-- R95: the captured length is `NBLK * 512 + 8 * FILLED` modulo 2^64; with `FILLED < 64` its bits 63..9 are
NBLK's bits 54..0, its bits 8..3 FILLED's bits 5..0, its bits 2..0 zero. -/
def Obligations.CaptureLength : Prop :=
  ∀ s : State,
    (capture s).lenreg.toNat = (s.nblk.toNat * 512 + 8 * s.filled.toNat) % 2 ^ 64 ∧
    (s.filled.toNat < 64 →
      (capture s).lenreg.extractLsb' 9 55 = s.nblk.extractLsb' 0 55 ∧
      (capture s).lenreg.extractLsb' 3 6 = s.filled.extractLsb' 0 6 ∧
      (capture s).lenreg.extractLsb' 0 3 = 0#3) ∧
    { capture s with lenreg := s.lenreg } = s

/-- R96: MARK puts `0x80` at FILLED and counts FILLED up, to 64 at most; no other byte changes. -/
def Obligations.MarkPutsTerminator : Prop :=
  ∀ s : State, s.filled.toNat < 64 →
    ∃ t, mark s = .ok t ∧ t.byteAt s.filled.toNat = 0x80#8 ∧
      (∀ a, a ≠ s.filled.toNat → t.byteAt a = s.byteAt a) ∧
      t.filled.toNat = s.filled.toNat + 1 ∧ t.h = s.h ∧ t.nblk = s.nblk ∧ t.lenreg = s.lenreg

/-- R97, R98, R99: filling the block after MARK. With `FILLED <= 56` zeros go to FILLED..55 and nothing else
changes. With `FILLED` from 57 to 64 zeros go to FILLED..63, that block is compressed and counted, and then
zeros go to 0..55; indices 56 to 63 still hold the bytes of the block compressed. -/
def Obligations.FillBlockTakesOneOrTwoBlocks : Prop :=
  ∀ s : State,
    (s.filled.toNat ≤ 56 →
      (∀ a, (fillBlock s).byteAt a = if s.filled.toNat ≤ a ∧ a < 56 then 0#8 else s.byteAt a) ∧
      { fillBlock s with buf := s.buf } = s) ∧
    (57 ≤ s.filled.toNat → s.filled.toNat ≤ 64 →
      (fillBlock s).h = compressHash s.h (fun i => if s.filled.toNat ≤ i then 0#8 else s.byteAt i) ∧
      (fillBlock s).nblk.toNat = (s.nblk.toNat + 1) % 2 ^ 64 ∧
      (∀ a, (fillBlock s).byteAt a =
        if a < 56 ∨ (s.filled.toNat ≤ a ∧ a < 64) then 0#8 else s.byteAt a) ∧
      { fillBlock s with buf := s.buf, h := s.h, nblk := s.nblk, scratch := s.scratch } = s)

/-- R100, R34: PUTLEN writes LENREG big-endian at 56 to 63, byte `56 + k` its bits `63-8k .. 56-8k`; read back
as words, its upper half stands at 56 and its lower half at 60; no other byte changes. -/
def Obligations.PutlenWritesBigEndian : Prop :=
  ∀ s : State,
    (∀ k, k < 8 → ((putlen s).byteAt (56 + k)).toNat = s.lenreg.toNat / 2 ^ (56 - 8 * k) % 2 ^ 8) ∧
    memRead32 (putlen s) 56 = s.lenreg.extractLsb' 32 32 ∧
    memRead32 (putlen s) 60 = s.lenreg.extractLsb' 0 32 ∧
    (∀ a, a < 56 ∨ 64 ≤ a → (putlen s).byteAt a = s.byteAt a) ∧
    { putlen s with buf := s.buf } = s

/-- R101, R104: FINISH. With `FILLED = p <= 55` it compresses one block, with `p` from 56 to 63 two; the block
last compressed (R38) is what the buffer then holds, the length written is the one captured before padding, the
response is the five words, which H keeps. What R104 says of the rest of the state; the host's side and the
bytes at indices that do not exist are unchanged. -/
def Obligations.FinishPadsAndResponds : Prop :=
  ∀ s : State, s.consumed = false → s.filled.toNat < 64 →
    let len := BitVec.ofNat 64 (s.nblk.toNat * 512 + 8 * s.filled.toNat)
    let last := if s.filled.toNat ≤ 55 then oneBlock s s.filled.toNat len else secondOfTwo len
    ∃ t, exec .finish s = .next t ∧
      (s.filled.toNat ≤ 55 → t.h = compressHash s.h last ∧ t.nblk = s.nblk + 1#64) ∧
      (56 ≤ s.filled.toNat →
        t.h = compressHash (compressHash s.h (firstOfTwo s s.filled.toNat)) last ∧ t.nblk = s.nblk + 2#64) ∧
      t.rsp = some (t.h.h0 ++ t.h.h1 ++ t.h.h2 ++ t.h.h3 ++ t.h.h4) ∧
      t.lenreg = len ∧ t.consumed = true ∧ t.filled.toNat < 64 ∧
      (∀ i, i < 64 → t.byteAt i = last i) ∧ (∀ a, 64 ≤ a → t.byteAt a = s.byteAt a) ∧
      s.SameHostSide t

/-- R52: only FINISH produces a response; the digest is the five hash words, H[0] in bits 159..128 and H[4]
in bits 31..0. -/
def Obligations.OnlyFinishResponds : Prop :=
  (∀ (i : Instr) (s t : State), exec i s = .next t →
    (i = .finish → ∃ x, t.rsp = some x) ∧ (i ≠ .finish → t.rsp = s.rsp)) ∧
  (∀ (s t : State), s.consumed = false → exec .finish s = .next t →
    ∃ x, t.rsp = some x ∧ x.extractLsb' 128 32 = t.h.h0 ∧ x.extractLsb' 96 32 = t.h.h1 ∧
      x.extractLsb' 64 32 = t.h.h2 ∧ x.extractLsb' 32 32 = t.h.h3 ∧ x.extractLsb' 0 32 = t.h.h4)

/-- R35: serialised, digest byte `4i + k` is bits `31-8k .. 24-8k` of word `i`. -/
def Obligations.DigestSerialisation : Prop :=
  ∀ h : Hash, (digestBytes h.digest).length = 20 ∧
    ∀ i k, i < 5 → k < 4 →
      (digestBytes h.digest)[4 * i + k]? =
        ([h.h0, h.h1, h.h2, h.h3, h.h4][i]?).map fun x : Word => x.extractLsb' (24 - 8 * k) 8

/-! ### The life of a message -/

/-- R141: on a consumed state PUSH and FINISH complete, raise nothing, keep `FILLED < 64` and CONSUMED, FINISH
with exactly one response and PUSH with none; RESET is fully defined. No value is promised. -/
def Obligations.MisuseCompletes : Prop :=
  ∀ s : State, s.consumed = true →
    (∀ d : Byte, ∃ t, exec (.push d) s = .next t ∧ t.consumed = true ∧ t.filled.toNat < 64 ∧
      t.rsp = s.rsp ∧ s.SameHostSide t) ∧
    (∃ t, exec .finish s = .next t ∧ t.consumed = true ∧ t.filled.toNat < 64 ∧
      (∃ x, t.rsp = some x) ∧ s.SameHostSide t) ∧
    (∃ t, exec .reset s = .next t ∧ t.Fresh)

/-- R18: CONSUMED is 0 after a hardware reset and RESET, 1 after every FINISH, and changed by nothing else:
over a whole step, it changes only at an edge with `rst`, or at one that accepts RESET or FINISH. -/
def Obligations.ConsumedChangesOnlyAtResetAndFinish : Prop :=
  (∀ (i : Instr) (s t : State), exec i s = .next t →
    t.consumed = match i with
      | .reset => false
      | .push _ => s.consumed
      | .finish => true) ∧
  (∀ s t : State, step s = .next t →
    (s.nextEdge.rst = true → t.consumed = false) ∧
    (t.consumed ≠ s.consumed →
      s.nextEdge.rst = true ∨
      (s.nextEdge.cmdValid = true ∧ s.cmdReady false = true ∧
        (decode s.nextEdge.cmdWord = .ok .reset ∨ decode s.nextEdge.cmdWord = .ok .finish))))

/-- R39: stale bytes of the buffer, and whatever else a host cannot observe, never influence a response: two
states that agree on H, FILLED, NBLK and the valid bytes give the same responses to every sequence that
keeps R140. -/
def Obligations.StaleBytesNeverInfluenceResponses : Prop :=
  ∀ (s t : State) (p : List HostOp),
    s.Alike t → s.filled.toNat < 64 → s.rsp = none → t.rsp = none → disciplined false p = true →
    ∃ s' t' xs, runOps p s = .next s' ∧ runOps p t = .next t' ∧
      s'.delivered = s.delivered ++ xs ∧ t'.delivered = t.delivered ++ xs

/-- R103, R105, R110: the response is SHA-1 of the bytes: the padded message (terminator, `z` zeros for the
least `z` that fits, 64-bit big-endian length in bits modulo 2^64) compressed block by block from IV. From 2^61
bytes on, where the length wraps, that value is not the standard's digest of the message (R144, log 21). So it is
for PUSH commands and a FINISH from a fresh state, and for `DIGEST data` from any state. H keeps the digest, and
NBLK counts all the blocks. -/
def Obligations.DigestIsSha1 : Prop :=
  ∀ data : List Byte,
    (∀ s : State, s.Fresh → s.rsp = none →
      ∃ t, runOps (pushes data ++ [.cmd .finish]) s = .next t ∧
        t.delivered = s.delivered ++ [(sha1 data).digest] ∧ t.h = sha1 data ∧ t.consumed = true ∧
        t.rsp = none ∧ t.nblk = BitVec.ofNat 64 ((data.length + 72) / 64)) ∧
    (∀ s : State, s.rsp = none →
      ∃ t, runOps (Pseudo.digest data).expand s = .next t ∧
        t.delivered = s.delivered ++ [(sha1 data).digest] ∧ t.h = sha1 data ∧ t.consumed = true ∧
        t.rsp = none) ∧
    (padded data).length = 64 * ((data.length + 72) / 64) ∧
    (data.length + 1 + zeroCount data.length) % 64 = 56 ∧ zeroCount data.length < 64

/-- R56, R67, R110, R112: the pseudo-commands. UPDATE is one PUSH per byte, in order; DIGEST is RESET, that
UPDATE and FINISH; WRITE is UPDATE; FLUSH is no command at all and changes no state; NEW is a hardware reset. -/
def Obligations.PseudoCommandsExpand : Prop :=
  ∀ (data : List Byte) (s : State),
    (Pseudo.update data).expand = (data.map fun d => HostOp.cmd (.push d)) ∧
    (Pseudo.update data).expand.length = data.length ∧
    (Pseudo.digest data).expand =
      [.cmd .reset] ++ (data.map fun d => HostOp.cmd (.push d)) ++ [.cmd .finish] ∧
    (Pseudo.write data).expand = (Pseudo.update data).expand ∧
    Pseudo.new.expand = [.new] ∧
    Pseudo.flush.expand = [] ∧ runOps Pseudo.flush.expand s = .next s
end

