-- ==== Sys2Proof/Laws/Memory.lean ====
section
/-! SUPPORT. The basic laws of the buffer's contents: read after write, and that a write keeps the canonical
form. -/

namespace Sys2Proof.Machine

/-- Reading the index just written gives the value written. -/
@[simp] theorem Memory.read_write_same (m : Memory) (a : Nat) (v : Byte) :
    Memory.read? (Memory.write m a v) a = some v := by
  induction m with
  | nil => simp [Memory.write, Memory.read?]
  | cons c m ih =>
    obtain ⟨b, x⟩ := c
    simp only [Memory.write]
    split
    · simp [Memory.read?]
    · split
      · simp [Memory.read?]
      · next h => simp [Memory.read?, Ne.symm h, ih]

/-- A write leaves every other index alone. -/
theorem Memory.read_write_other (m : Memory) {a b : Nat} (v : Byte) (h : b ≠ a) :
    Memory.read? (Memory.write m a v) b = Memory.read? m b := by
  induction m with
  | nil => simp [Memory.write, Memory.read?, Ne.symm h]
  | cons c m ih =>
    obtain ⟨k, x⟩ := c
    simp only [Memory.write]
    split
    · simp [Memory.read?, Ne.symm h]
    · split
      · next hk => subst hk; simp [Memory.read?, Ne.symm h]
      · simp [Memory.read?, ih]

/-- Reading after a write, both cases. -/
theorem Memory.read_write (m : Memory) (a b : Nat) (v : Byte) :
    Memory.read? (Memory.write m a v) b = if b = a then some v else Memory.read? m b := by
  split
  · next h => subst h; simp
  · next h => exact Memory.read_write_other m v h

/-- A list that rises from `lo` on also rises from any smaller bound. -/
theorem Memory.risingFrom_mono {lo lo' : Nat} (m : Memory) (h : lo ≤ lo') :
    Memory.risingFrom lo' m = true → Memory.risingFrom lo m = true := by
  cases m with
  | nil => simp [Memory.risingFrom]
  | cons c m =>
    simp only [Memory.risingFrom, Bool.and_eq_true, decide_eq_true_eq]
    rintro ⟨⟨h1, h2⟩, h3⟩
    exact ⟨⟨h.trans h1, h2⟩, h3⟩

/-- A write inside the buffer keeps a list rising from any bound not above the index written. -/
theorem Memory.risingFrom_write {lo a : Nat} (m : Memory) (v : Byte) (hlo : lo ≤ a) (ha : a < blockSize) :
    Memory.risingFrom lo m = true → Memory.risingFrom lo (Memory.write m a v) = true := by
  induction m generalizing lo with
  | nil => intro _; simp [Memory.write, Memory.risingFrom, hlo, ha]
  | cons c m ih =>
    obtain ⟨b, x⟩ := c
    simp only [Memory.write, Memory.risingFrom, Bool.and_eq_true, decide_eq_true_eq]
    rintro ⟨⟨h1, h2⟩, h3⟩
    split
    · next hab =>
      simp only [Memory.risingFrom, Bool.and_eq_true, decide_eq_true_eq]
      exact ⟨⟨hlo, ha⟩, ⟨Nat.succ_le_of_lt hab, h2⟩, h3⟩
    · split
      · next hab => subst hab; simpa [Memory.risingFrom] using ⟨⟨hlo, ha⟩, h3⟩
      · next h4 h5 =>
        simp only [Memory.risingFrom, Bool.and_eq_true, decide_eq_true_eq]
        exact ⟨⟨h1, h2⟩, ih (by omega) h3⟩

/-- Every store at an index of the buffer keeps the canonical form. -/
theorem Memory.wf_write {m : Memory} {a : Nat} (v : Byte) (ha : a < blockSize) (h : Memory.wf m = true) :
    Memory.wf (Memory.write m a v) = true :=
  Memory.risingFrom_write m v (Nat.zero_le a) ha h

/-- The empty contents are in canonical form. -/
@[simp] theorem Memory.wf_nil : Memory.wf [] = true := rfl

/-- In canonical form an index below the bound is not listed. -/
theorem Memory.read_below {lo a : Nat} (m : Memory) (h : a < lo) (hm : Memory.risingFrom lo m = true) :
    Memory.read? m a = none := by
  induction m generalizing lo with
  | nil => rfl
  | cons c m ih =>
    obtain ⟨b, x⟩ := c
    simp only [Memory.risingFrom, Bool.and_eq_true, decide_eq_true_eq] at hm
    have : b ≠ a := by omega
    simp [Memory.read?, this, ih (by omega : a < b + 1) hm.2]

/-- Contents in canonical form that read the same at every index are the same list. -/
theorem Memory.ext_of_risingFrom {lo : Nat} (m n : Memory) (hm : Memory.risingFrom lo m = true)
    (hn : Memory.risingFrom lo n = true) (h : ∀ a, Memory.read? m a = Memory.read? n a) : m = n := by
  induction m generalizing n lo with
  | nil =>
    cases n with
    | nil => rfl
    | cons c n => obtain ⟨b, x⟩ := c; simpa [Memory.read?] using h b
  | cons c m ih =>
    obtain ⟨b, x⟩ := c
    cases n with
    | nil => simpa [Memory.read?] using h b
    | cons c n =>
      obtain ⟨b', x'⟩ := c
      simp only [Memory.risingFrom, Bool.and_eq_true, decide_eq_true_eq] at hm hn
      have hb : b = b' := by
        rcases Nat.lt_trichotomy b b' with hlt | heq | hgt
        · have := h b
          rw [show Memory.read? ((b', x') :: n) b = none by
            rw [Memory.read?, if_neg (by omega : ¬ b' = b)]
            exact Memory.read_below n (by omega : b < b' + 1) hn.2] at this
          simp [Memory.read?] at this
        · exact heq
        · have := h b'
          rw [show Memory.read? ((b, x) :: m) b' = none by
            rw [Memory.read?, if_neg (by omega : ¬ b = b')]
            exact Memory.read_below m (by omega : b' < b + 1) hm.2] at this
          simp [Memory.read?] at this
      subst hb
      have hx : x = x' := by simpa [Memory.read?] using h b
      subst hx
      congr 1
      refine ih n hm.2 hn.2 fun a => ?_
      by_cases ha : b = a
      · subst ha
        rw [Memory.read_below m (Nat.lt_succ_self b) hm.2, Memory.read_below n (Nat.lt_succ_self b) hn.2]
      · simpa [Memory.read?, ha] using h a

/-- Equal memories are equal data: in canonical form, the same bytes mean the same list. -/
theorem Memory.ext_of_wf {m n : Memory} (hm : Memory.wf m = true) (hn : Memory.wf n = true)
    (h : ∀ a, Memory.read? m a = Memory.read? n a) : m = n :=
  Memory.ext_of_risingFrom m n hm hn h

/-- Reading after a run of stores (R31). -/
theorem Memory.read_writeBytes (vs : List Byte) (m : Memory) (a b : Nat) :
    Memory.read? (Memory.writeBytes m a vs) b =
      if a ≤ b ∧ b < a + vs.length then some (vs.getD (b - a) 0#8) else Memory.read? m b := by
  induction vs generalizing m a with
  | nil => simp [Memory.writeBytes]
  | cons v vs ih =>
    rw [Memory.writeBytes, ih, Memory.read_write]
    by_cases h : b = a
    · subst h; simp
    · simp only [h, if_false, List.length_cons]
      by_cases h2 : a + 1 ≤ b ∧ b < a + 1 + vs.length
      · rw [if_pos h2, if_pos (by omega), show b - a = (b - (a + 1)) + 1 by omega]
        rfl
      · rw [if_neg h2, if_neg (by omega)]

/-- A run of stores that ends inside the buffer keeps the canonical form. -/
theorem Memory.wf_writeBytes (vs : List Byte) {m : Memory} {a : Nat} (ha : a + vs.length ≤ blockSize)
    (h : Memory.wf m = true) : Memory.wf (Memory.writeBytes m a vs) = true := by
  induction vs generalizing m a with
  | nil => exact h
  | cons v vs ih =>
    rw [List.length_cons] at ha
    exact ih (by omega) (Memory.wf_write v (by omega) h)

/-- Two runs of stores one after the other are one run. -/
theorem Memory.writeBytes_append (xs ys : List Byte) (m : Memory) (a : Nat) :
    Memory.writeBytes m a (xs ++ ys) = Memory.writeBytes (Memory.writeBytes m a xs) (a + xs.length) ys := by
  induction xs generalizing m a with
  | nil => rfl
  | cons x xs ih =>
    simp only [List.cons_append, Memory.writeBytes, ih, List.length_cons]
    congr 1
    omega

/-- Zero fill, read byte by byte (R98, R99). -/
theorem Memory.read_zeroFill (m : Memory) (lo hi b : Nat) :
    Memory.read? (Memory.zeroFill m lo hi) b = if lo ≤ b ∧ b < hi then some 0#8 else Memory.read? m b := by
  rw [Memory.zeroFill, Memory.read_writeBytes, List.length_replicate]
  by_cases h : lo ≤ b ∧ b < hi
  · rw [if_pos h, if_pos (by omega), List.getD_eq_getElem?_getD]
    simp [show b - lo < hi - lo by omega]
  · rw [if_neg h, if_neg (by omega)]

/-- Zero fill keeps the canonical form. -/
theorem Memory.wf_zeroFill {m : Memory} {lo hi : Nat} (hh : hi ≤ blockSize) (h : Memory.wf m = true) :
    Memory.wf (Memory.zeroFill m lo hi) = true := by
  by_cases hl : lo ≤ hi
  · exact Memory.wf_writeBytes _ (by rw [List.length_replicate]; omega) h
  · simpa [Memory.zeroFill, show hi - lo = 0 by omega, Memory.writeBytes] using h

@[simp] theorem beBytes_length (v : Long) : (beBytes v).length = 8 := by simp [beBytes]

/-- The eight bytes of a 64-bit value (R34). -/
theorem beBytes_getD (v : Long) {k : Nat} (h : k < 8) : (beBytes v).getD k 0#8 = beByte v k := by
  simp [beBytes, List.getD_eq_getElem?_getD, h]

/-- The 8-byte store, read byte by byte (R34). -/
theorem Memory.read_write64 (m : Memory) (a b : Nat) (v : Long) :
    Memory.read? (Memory.write64 m a v) b =
      if a ≤ b ∧ b < a + 8 then some (beByte v (b - a)) else Memory.read? m b := by
  rw [Memory.write64, Memory.read_writeBytes, beBytes_length]
  refine if_ctx_congr Iff.rfl (fun h => ?_) fun _ => rfl
  rw [beBytes_getD v (by omega)]

/-- The 8-byte store keeps the canonical form. -/
theorem Memory.wf_write64 {m : Memory} {a : Nat} (v : Long) (ha : a + 8 ≤ blockSize)
    (h : Memory.wf m = true) : Memory.wf (Memory.write64 m a v) = true :=
  Memory.wf_writeBytes _ (by rw [beBytes_length]; exact ha) h

end Sys2Proof.Machine
end

