-- ==== Sys2Proof/Laws/State.lean ====
section
/-! SUPPORT. What each named update of the state does to each field: one lemma per field per update, true by
reading off the state's fields, so that no later proof unfolds a record update. -/

namespace Sys2Proof.Machine

@[simp] theorem memWrite64_h (a : Nat) (v : Long) (s : State) : (memWrite64 a v s).h = s.h := by cases s; rfl
@[simp] theorem memWrite64_buf (a : Nat) (v : Long) (s : State) : (memWrite64 a v s).buf = Memory.write64 s.buf a v := by cases s; rfl
@[simp] theorem memWrite64_bufDraw (a : Nat) (v : Long) (s : State) : (memWrite64 a v s).bufDraw = s.bufDraw := by cases s; rfl
@[simp] theorem memWrite64_filled (a : Nat) (v : Long) (s : State) : (memWrite64 a v s).filled = s.filled := by cases s; rfl
@[simp] theorem memWrite64_nblk (a : Nat) (v : Long) (s : State) : (memWrite64 a v s).nblk = s.nblk := by cases s; rfl
@[simp] theorem memWrite64_scratch (a : Nat) (v : Long) (s : State) : (memWrite64 a v s).scratch = s.scratch := by cases s; rfl
@[simp] theorem memWrite64_lenreg (a : Nat) (v : Long) (s : State) : (memWrite64 a v s).lenreg = s.lenreg := by cases s; rfl
@[simp] theorem memWrite64_consumed (a : Nat) (v : Long) (s : State) : (memWrite64 a v s).consumed = s.consumed := by cases s; rfl
@[simp] theorem memWrite64_rsp (a : Nat) (v : Long) (s : State) : (memWrite64 a v s).rsp = s.rsp := by cases s; rfl
@[simp] theorem memWrite64_busy (a : Nat) (v : Long) (s : State) : (memWrite64 a v s).busy = s.busy := by cases s; rfl
@[simp] theorem memWrite64_latency (a : Nat) (v : Long) (s : State) : (memWrite64 a v s).latency = s.latency := by cases s; rfl
@[simp] theorem memWrite64_drive (a : Nat) (v : Long) (s : State) : (memWrite64 a v s).drive = s.drive := by cases s; rfl
@[simp] theorem memWrite64_held (a : Nat) (v : Long) (s : State) : (memWrite64 a v s).held = s.held := by cases s; rfl
@[simp] theorem memWrite64_delivered (a : Nat) (v : Long) (s : State) : (memWrite64 a v s).delivered = s.delivered := by cases s; rfl
@[simp] theorem memWrite64_draws (a : Nat) (v : Long) (s : State) : (memWrite64 a v s).draws = s.draws := by cases s; rfl

@[simp] theorem zeroFill_h (lo hi : Nat) (s : State) : (zeroFill lo hi s).h = s.h := by cases s; rfl
@[simp] theorem zeroFill_buf (lo hi : Nat) (s : State) : (zeroFill lo hi s).buf = Memory.zeroFill s.buf lo hi := by cases s; rfl
@[simp] theorem zeroFill_bufDraw (lo hi : Nat) (s : State) : (zeroFill lo hi s).bufDraw = s.bufDraw := by cases s; rfl
@[simp] theorem zeroFill_filled (lo hi : Nat) (s : State) : (zeroFill lo hi s).filled = s.filled := by cases s; rfl
@[simp] theorem zeroFill_nblk (lo hi : Nat) (s : State) : (zeroFill lo hi s).nblk = s.nblk := by cases s; rfl
@[simp] theorem zeroFill_scratch (lo hi : Nat) (s : State) : (zeroFill lo hi s).scratch = s.scratch := by cases s; rfl
@[simp] theorem zeroFill_lenreg (lo hi : Nat) (s : State) : (zeroFill lo hi s).lenreg = s.lenreg := by cases s; rfl
@[simp] theorem zeroFill_consumed (lo hi : Nat) (s : State) : (zeroFill lo hi s).consumed = s.consumed := by cases s; rfl
@[simp] theorem zeroFill_rsp (lo hi : Nat) (s : State) : (zeroFill lo hi s).rsp = s.rsp := by cases s; rfl
@[simp] theorem zeroFill_busy (lo hi : Nat) (s : State) : (zeroFill lo hi s).busy = s.busy := by cases s; rfl
@[simp] theorem zeroFill_latency (lo hi : Nat) (s : State) : (zeroFill lo hi s).latency = s.latency := by cases s; rfl
@[simp] theorem zeroFill_drive (lo hi : Nat) (s : State) : (zeroFill lo hi s).drive = s.drive := by cases s; rfl
@[simp] theorem zeroFill_held (lo hi : Nat) (s : State) : (zeroFill lo hi s).held = s.held := by cases s; rfl
@[simp] theorem zeroFill_delivered (lo hi : Nat) (s : State) : (zeroFill lo hi s).delivered = s.delivered := by cases s; rfl
@[simp] theorem zeroFill_draws (lo hi : Nat) (s : State) : (zeroFill lo hi s).draws = s.draws := by cases s; rfl

@[simp] theorem copyBytes_h (a : Nat) (data : List Byte) (s : State) : (copyBytes a data s).h = s.h := by cases s; rfl
@[simp] theorem copyBytes_buf (a : Nat) (data : List Byte) (s : State) : (copyBytes a data s).buf = Memory.writeBytes s.buf a data := by cases s; rfl
@[simp] theorem copyBytes_bufDraw (a : Nat) (data : List Byte) (s : State) : (copyBytes a data s).bufDraw = s.bufDraw := by cases s; rfl
@[simp] theorem copyBytes_filled (a : Nat) (data : List Byte) (s : State) : (copyBytes a data s).filled = s.filled := by cases s; rfl
@[simp] theorem copyBytes_nblk (a : Nat) (data : List Byte) (s : State) : (copyBytes a data s).nblk = s.nblk := by cases s; rfl
@[simp] theorem copyBytes_scratch (a : Nat) (data : List Byte) (s : State) : (copyBytes a data s).scratch = s.scratch := by cases s; rfl
@[simp] theorem copyBytes_lenreg (a : Nat) (data : List Byte) (s : State) : (copyBytes a data s).lenreg = s.lenreg := by cases s; rfl
@[simp] theorem copyBytes_consumed (a : Nat) (data : List Byte) (s : State) : (copyBytes a data s).consumed = s.consumed := by cases s; rfl
@[simp] theorem copyBytes_rsp (a : Nat) (data : List Byte) (s : State) : (copyBytes a data s).rsp = s.rsp := by cases s; rfl
@[simp] theorem copyBytes_busy (a : Nat) (data : List Byte) (s : State) : (copyBytes a data s).busy = s.busy := by cases s; rfl
@[simp] theorem copyBytes_latency (a : Nat) (data : List Byte) (s : State) : (copyBytes a data s).latency = s.latency := by cases s; rfl
@[simp] theorem copyBytes_drive (a : Nat) (data : List Byte) (s : State) : (copyBytes a data s).drive = s.drive := by cases s; rfl
@[simp] theorem copyBytes_held (a : Nat) (data : List Byte) (s : State) : (copyBytes a data s).held = s.held := by cases s; rfl
@[simp] theorem copyBytes_delivered (a : Nat) (data : List Byte) (s : State) : (copyBytes a data s).delivered = s.delivered := by cases s; rfl
@[simp] theorem copyBytes_draws (a : Nat) (data : List Byte) (s : State) : (copyBytes a data s).draws = s.draws := by cases s; rfl

@[simp] theorem addRounds_h (x : Scratch) (s : State) : (addRounds x s).h = addback s.h x := by cases s; rfl
@[simp] theorem addRounds_buf (x : Scratch) (s : State) : (addRounds x s).buf = s.buf := by cases s; rfl
@[simp] theorem addRounds_bufDraw (x : Scratch) (s : State) : (addRounds x s).bufDraw = s.bufDraw := by cases s; rfl
@[simp] theorem addRounds_filled (x : Scratch) (s : State) : (addRounds x s).filled = s.filled := by cases s; rfl
@[simp] theorem addRounds_nblk (x : Scratch) (s : State) : (addRounds x s).nblk = s.nblk + 1#64 := by cases s; rfl
@[simp] theorem addRounds_scratch (x : Scratch) (s : State) : (addRounds x s).scratch = x := by cases s; rfl
@[simp] theorem addRounds_lenreg (x : Scratch) (s : State) : (addRounds x s).lenreg = s.lenreg := by cases s; rfl
@[simp] theorem addRounds_consumed (x : Scratch) (s : State) : (addRounds x s).consumed = s.consumed := by cases s; rfl
@[simp] theorem addRounds_rsp (x : Scratch) (s : State) : (addRounds x s).rsp = s.rsp := by cases s; rfl
@[simp] theorem addRounds_busy (x : Scratch) (s : State) : (addRounds x s).busy = s.busy := by cases s; rfl
@[simp] theorem addRounds_latency (x : Scratch) (s : State) : (addRounds x s).latency = s.latency := by cases s; rfl
@[simp] theorem addRounds_drive (x : Scratch) (s : State) : (addRounds x s).drive = s.drive := by cases s; rfl
@[simp] theorem addRounds_held (x : Scratch) (s : State) : (addRounds x s).held = s.held := by cases s; rfl
@[simp] theorem addRounds_delivered (x : Scratch) (s : State) : (addRounds x s).delivered = s.delivered := by cases s; rfl
@[simp] theorem addRounds_draws (x : Scratch) (s : State) : (addRounds x s).draws = s.draws := by cases s; rfl

@[simp] theorem putByte_h (a : Nat) (v : Byte) (s : State) : (putByte a v s).h = s.h := by cases s; rfl
@[simp] theorem putByte_buf (a : Nat) (v : Byte) (s : State) : (putByte a v s).buf = Memory.write s.buf a v := by cases s; rfl
@[simp] theorem putByte_bufDraw (a : Nat) (v : Byte) (s : State) : (putByte a v s).bufDraw = s.bufDraw := by cases s; rfl
@[simp] theorem putByte_filled (a : Nat) (v : Byte) (s : State) : (putByte a v s).filled = s.filled := by cases s; rfl
@[simp] theorem putByte_nblk (a : Nat) (v : Byte) (s : State) : (putByte a v s).nblk = s.nblk := by cases s; rfl
@[simp] theorem putByte_scratch (a : Nat) (v : Byte) (s : State) : (putByte a v s).scratch = s.scratch := by cases s; rfl
@[simp] theorem putByte_lenreg (a : Nat) (v : Byte) (s : State) : (putByte a v s).lenreg = s.lenreg := by cases s; rfl
@[simp] theorem putByte_consumed (a : Nat) (v : Byte) (s : State) : (putByte a v s).consumed = s.consumed := by cases s; rfl
@[simp] theorem putByte_rsp (a : Nat) (v : Byte) (s : State) : (putByte a v s).rsp = s.rsp := by cases s; rfl
@[simp] theorem putByte_busy (a : Nat) (v : Byte) (s : State) : (putByte a v s).busy = s.busy := by cases s; rfl
@[simp] theorem putByte_latency (a : Nat) (v : Byte) (s : State) : (putByte a v s).latency = s.latency := by cases s; rfl
@[simp] theorem putByte_drive (a : Nat) (v : Byte) (s : State) : (putByte a v s).drive = s.drive := by cases s; rfl
@[simp] theorem putByte_held (a : Nat) (v : Byte) (s : State) : (putByte a v s).held = s.held := by cases s; rfl
@[simp] theorem putByte_delivered (a : Nat) (v : Byte) (s : State) : (putByte a v s).delivered = s.delivered := by cases s; rfl
@[simp] theorem putByte_draws (a : Nat) (v : Byte) (s : State) : (putByte a v s).draws = s.draws := by cases s; rfl

@[simp] theorem endDraw_h (s : State) : (endDraw s).h = s.h := by cases s; rfl
@[simp] theorem endDraw_buf (s : State) : (endDraw s).buf = s.buf := by cases s; rfl
@[simp] theorem endDraw_bufDraw (s : State) : (endDraw s).bufDraw = s.bufDraw := by cases s; rfl
@[simp] theorem endDraw_filled (s : State) : (endDraw s).filled = s.filled := by cases s; rfl
@[simp] theorem endDraw_nblk (s : State) : (endDraw s).nblk = s.nblk := by cases s; rfl
@[simp] theorem endDraw_scratch (s : State) : (endDraw s).scratch = s.scratch := by cases s; rfl
@[simp] theorem endDraw_lenreg (s : State) : (endDraw s).lenreg = s.lenreg := by cases s; rfl
@[simp] theorem endDraw_consumed (s : State) : (endDraw s).consumed = s.consumed := by cases s; rfl
@[simp] theorem endDraw_rsp (s : State) : (endDraw s).rsp = s.rsp := by cases s; rfl
@[simp] theorem endDraw_busy (s : State) : (endDraw s).busy = s.busy := by cases s; rfl
@[simp] theorem endDraw_latency (s : State) : (endDraw s).latency = s.latency := by cases s; rfl
@[simp] theorem endDraw_drive (s : State) : (endDraw s).drive = s.drive := by cases s; rfl
@[simp] theorem endDraw_held (s : State) : (endDraw s).held = s.held := by cases s; rfl
@[simp] theorem endDraw_delivered (s : State) : (endDraw s).delivered = s.delivered := by cases s; rfl
@[simp] theorem endDraw_draws (s : State) : (endDraw s).draws = s.draws + 1 := by cases s; rfl

@[simp] theorem releaseScratch_h (s : State) : (releaseScratch s).h = s.h := by cases s; rfl
@[simp] theorem releaseScratch_buf (s : State) : (releaseScratch s).buf = s.buf := by cases s; rfl
@[simp] theorem releaseScratch_bufDraw (s : State) : (releaseScratch s).bufDraw = s.bufDraw := by cases s; rfl
@[simp] theorem releaseScratch_filled (s : State) : (releaseScratch s).filled = s.filled := by cases s; rfl
@[simp] theorem releaseScratch_nblk (s : State) : (releaseScratch s).nblk = s.nblk := by cases s; rfl
@[simp] theorem releaseScratch_scratch (s : State) : (releaseScratch s).scratch = Scratch.free s.draws := by cases s; rfl
@[simp] theorem releaseScratch_lenreg (s : State) : (releaseScratch s).lenreg = s.lenreg := by cases s; rfl
@[simp] theorem releaseScratch_consumed (s : State) : (releaseScratch s).consumed = s.consumed := by cases s; rfl
@[simp] theorem releaseScratch_rsp (s : State) : (releaseScratch s).rsp = s.rsp := by cases s; rfl
@[simp] theorem releaseScratch_busy (s : State) : (releaseScratch s).busy = s.busy := by cases s; rfl
@[simp] theorem releaseScratch_latency (s : State) : (releaseScratch s).latency = s.latency := by cases s; rfl
@[simp] theorem releaseScratch_drive (s : State) : (releaseScratch s).drive = s.drive := by cases s; rfl
@[simp] theorem releaseScratch_held (s : State) : (releaseScratch s).held = s.held := by cases s; rfl
@[simp] theorem releaseScratch_delivered (s : State) : (releaseScratch s).delivered = s.delivered := by cases s; rfl
@[simp] theorem releaseScratch_draws (s : State) : (releaseScratch s).draws = s.draws + 1 := by cases s; rfl

@[simp] theorem toInitial_h (s : State) : (toInitial s).h = iv := by cases s; rfl
@[simp] theorem toInitial_buf (s : State) : (toInitial s).buf = s.buf := by cases s; rfl
@[simp] theorem toInitial_bufDraw (s : State) : (toInitial s).bufDraw = s.bufDraw := by cases s; rfl
@[simp] theorem toInitial_filled (s : State) : (toInitial s).filled = 0#7 := by cases s; rfl
@[simp] theorem toInitial_nblk (s : State) : (toInitial s).nblk = 0#64 := by cases s; rfl
@[simp] theorem toInitial_scratch (s : State) : (toInitial s).scratch = Scratch.free s.draws := by cases s; rfl
@[simp] theorem toInitial_lenreg (s : State) : (toInitial s).lenreg = Config.freeLenreg s.draws := by cases s; rfl
@[simp] theorem toInitial_consumed (s : State) : (toInitial s).consumed = false := by cases s; rfl
@[simp] theorem toInitial_rsp (s : State) : (toInitial s).rsp = s.rsp := by cases s; rfl
@[simp] theorem toInitial_busy (s : State) : (toInitial s).busy = s.busy := by cases s; rfl
@[simp] theorem toInitial_latency (s : State) : (toInitial s).latency = s.latency := by cases s; rfl
@[simp] theorem toInitial_drive (s : State) : (toInitial s).drive = s.drive := by cases s; rfl
@[simp] theorem toInitial_held (s : State) : (toInitial s).held = s.held := by cases s; rfl
@[simp] theorem toInitial_delivered (s : State) : (toInitial s).delivered = s.delivered := by cases s; rfl
@[simp] theorem toInitial_draws (s : State) : (toInitial s).draws = s.draws := by cases s; rfl

@[simp] theorem misuse_h (s : State) : (misuse s).h = Hash.free s.draws := by cases s; rfl
@[simp] theorem misuse_buf (s : State) : (misuse s).buf = [] := by cases s; rfl
@[simp] theorem misuse_bufDraw (s : State) : (misuse s).bufDraw = s.draws := by cases s; rfl
@[simp] theorem misuse_filled (s : State) : (misuse s).filled = (Config.freeFilled s.draws).setWidth 7 := by cases s; rfl
@[simp] theorem misuse_nblk (s : State) : (misuse s).nblk = Config.freeNblk s.draws := by cases s; rfl
@[simp] theorem misuse_scratch (s : State) : (misuse s).scratch = Scratch.free s.draws := by cases s; rfl
@[simp] theorem misuse_lenreg (s : State) : (misuse s).lenreg = Config.freeLenreg s.draws := by cases s; rfl
@[simp] theorem misuse_consumed (s : State) : (misuse s).consumed = s.consumed := by cases s; rfl
@[simp] theorem misuse_rsp (s : State) : (misuse s).rsp = s.rsp := by cases s; rfl
@[simp] theorem misuse_busy (s : State) : (misuse s).busy = s.busy := by cases s; rfl
@[simp] theorem misuse_latency (s : State) : (misuse s).latency = s.latency := by cases s; rfl
@[simp] theorem misuse_drive (s : State) : (misuse s).drive = s.drive := by cases s; rfl
@[simp] theorem misuse_held (s : State) : (misuse s).held = s.held := by cases s; rfl
@[simp] theorem misuse_delivered (s : State) : (misuse s).delivered = s.delivered := by cases s; rfl
@[simp] theorem misuse_draws (s : State) : (misuse s).draws = s.draws := by cases s; rfl

@[simp] theorem hardwareReset_h (s : State) : (hardwareReset s).h = iv := by cases s; rfl
@[simp] theorem hardwareReset_buf (s : State) : (hardwareReset s).buf = [] := by cases s; rfl
@[simp] theorem hardwareReset_bufDraw (s : State) : (hardwareReset s).bufDraw = s.draws := by cases s; rfl
@[simp] theorem hardwareReset_filled (s : State) : (hardwareReset s).filled = 0#7 := by cases s; rfl
@[simp] theorem hardwareReset_nblk (s : State) : (hardwareReset s).nblk = 0#64 := by cases s; rfl
@[simp] theorem hardwareReset_scratch (s : State) : (hardwareReset s).scratch = Scratch.free s.draws := by cases s; rfl
@[simp] theorem hardwareReset_lenreg (s : State) : (hardwareReset s).lenreg = Config.freeLenreg s.draws := by cases s; rfl
@[simp] theorem hardwareReset_consumed (s : State) : (hardwareReset s).consumed = false := by cases s; rfl
@[simp] theorem hardwareReset_rsp (s : State) : (hardwareReset s).rsp = none := by cases s; rfl
@[simp] theorem hardwareReset_busy (s : State) : (hardwareReset s).busy = 0 := by cases s; rfl
@[simp] theorem hardwareReset_latency (s : State) : (hardwareReset s).latency = s.latency := by cases s; rfl
@[simp] theorem hardwareReset_drive (s : State) : (hardwareReset s).drive = s.drive := by cases s; rfl
@[simp] theorem hardwareReset_held (s : State) : (hardwareReset s).held = none := by cases s; rfl
@[simp] theorem hardwareReset_delivered (s : State) : (hardwareReset s).delivered = s.delivered := by cases s; rfl
@[simp] theorem hardwareReset_draws (s : State) : (hardwareReset s).draws = s.draws + 1 := by cases s; rfl

@[simp] theorem bumpFilled_h (s : State) : (bumpFilled s).h = s.h := by cases s; rfl
@[simp] theorem bumpFilled_buf (s : State) : (bumpFilled s).buf = s.buf := by cases s; rfl
@[simp] theorem bumpFilled_bufDraw (s : State) : (bumpFilled s).bufDraw = s.bufDraw := by cases s; rfl
@[simp] theorem bumpFilled_filled (s : State) : (bumpFilled s).filled = s.filled + 1#7 := by cases s; rfl
@[simp] theorem bumpFilled_nblk (s : State) : (bumpFilled s).nblk = s.nblk := by cases s; rfl
@[simp] theorem bumpFilled_scratch (s : State) : (bumpFilled s).scratch = s.scratch := by cases s; rfl
@[simp] theorem bumpFilled_lenreg (s : State) : (bumpFilled s).lenreg = s.lenreg := by cases s; rfl
@[simp] theorem bumpFilled_consumed (s : State) : (bumpFilled s).consumed = s.consumed := by cases s; rfl
@[simp] theorem bumpFilled_rsp (s : State) : (bumpFilled s).rsp = s.rsp := by cases s; rfl
@[simp] theorem bumpFilled_busy (s : State) : (bumpFilled s).busy = s.busy := by cases s; rfl
@[simp] theorem bumpFilled_latency (s : State) : (bumpFilled s).latency = s.latency := by cases s; rfl
@[simp] theorem bumpFilled_drive (s : State) : (bumpFilled s).drive = s.drive := by cases s; rfl
@[simp] theorem bumpFilled_held (s : State) : (bumpFilled s).held = s.held := by cases s; rfl
@[simp] theorem bumpFilled_delivered (s : State) : (bumpFilled s).delivered = s.delivered := by cases s; rfl
@[simp] theorem bumpFilled_draws (s : State) : (bumpFilled s).draws = s.draws := by cases s; rfl

@[simp] theorem clearFilled_h (s : State) : (clearFilled s).h = s.h := by cases s; rfl
@[simp] theorem clearFilled_buf (s : State) : (clearFilled s).buf = s.buf := by cases s; rfl
@[simp] theorem clearFilled_bufDraw (s : State) : (clearFilled s).bufDraw = s.bufDraw := by cases s; rfl
@[simp] theorem clearFilled_filled (s : State) : (clearFilled s).filled = 0#7 := by cases s; rfl
@[simp] theorem clearFilled_nblk (s : State) : (clearFilled s).nblk = s.nblk := by cases s; rfl
@[simp] theorem clearFilled_scratch (s : State) : (clearFilled s).scratch = s.scratch := by cases s; rfl
@[simp] theorem clearFilled_lenreg (s : State) : (clearFilled s).lenreg = s.lenreg := by cases s; rfl
@[simp] theorem clearFilled_consumed (s : State) : (clearFilled s).consumed = s.consumed := by cases s; rfl
@[simp] theorem clearFilled_rsp (s : State) : (clearFilled s).rsp = s.rsp := by cases s; rfl
@[simp] theorem clearFilled_busy (s : State) : (clearFilled s).busy = s.busy := by cases s; rfl
@[simp] theorem clearFilled_latency (s : State) : (clearFilled s).latency = s.latency := by cases s; rfl
@[simp] theorem clearFilled_drive (s : State) : (clearFilled s).drive = s.drive := by cases s; rfl
@[simp] theorem clearFilled_held (s : State) : (clearFilled s).held = s.held := by cases s; rfl
@[simp] theorem clearFilled_delivered (s : State) : (clearFilled s).delivered = s.delivered := by cases s; rfl
@[simp] theorem clearFilled_draws (s : State) : (clearFilled s).draws = s.draws := by cases s; rfl

@[simp] theorem capture_h (s : State) : (capture s).h = s.h := by cases s; rfl
@[simp] theorem capture_buf (s : State) : (capture s).buf = s.buf := by cases s; rfl
@[simp] theorem capture_bufDraw (s : State) : (capture s).bufDraw = s.bufDraw := by cases s; rfl
@[simp] theorem capture_filled (s : State) : (capture s).filled = s.filled := by cases s; rfl
@[simp] theorem capture_nblk (s : State) : (capture s).nblk = s.nblk := by cases s; rfl
@[simp] theorem capture_scratch (s : State) : (capture s).scratch = s.scratch := by cases s; rfl
@[simp] theorem capture_lenreg (s : State) : (capture s).lenreg = bitLength s.nblk s.filled := by cases s; rfl
@[simp] theorem capture_consumed (s : State) : (capture s).consumed = s.consumed := by cases s; rfl
@[simp] theorem capture_rsp (s : State) : (capture s).rsp = s.rsp := by cases s; rfl
@[simp] theorem capture_busy (s : State) : (capture s).busy = s.busy := by cases s; rfl
@[simp] theorem capture_latency (s : State) : (capture s).latency = s.latency := by cases s; rfl
@[simp] theorem capture_drive (s : State) : (capture s).drive = s.drive := by cases s; rfl
@[simp] theorem capture_held (s : State) : (capture s).held = s.held := by cases s; rfl
@[simp] theorem capture_delivered (s : State) : (capture s).delivered = s.delivered := by cases s; rfl
@[simp] theorem capture_draws (s : State) : (capture s).draws = s.draws := by cases s; rfl

@[simp] theorem zfill_h (s : State) : (zfill s).h = s.h := by cases s; rfl
@[simp] theorem zfill_buf (s : State) : (zfill s).buf = Memory.zeroFill s.buf s.filled.toNat 56 := by cases s; rfl
@[simp] theorem zfill_bufDraw (s : State) : (zfill s).bufDraw = s.bufDraw := by cases s; rfl
@[simp] theorem zfill_filled (s : State) : (zfill s).filled = s.filled := by cases s; rfl
@[simp] theorem zfill_nblk (s : State) : (zfill s).nblk = s.nblk := by cases s; rfl
@[simp] theorem zfill_scratch (s : State) : (zfill s).scratch = s.scratch := by cases s; rfl
@[simp] theorem zfill_lenreg (s : State) : (zfill s).lenreg = s.lenreg := by cases s; rfl
@[simp] theorem zfill_consumed (s : State) : (zfill s).consumed = s.consumed := by cases s; rfl
@[simp] theorem zfill_rsp (s : State) : (zfill s).rsp = s.rsp := by cases s; rfl
@[simp] theorem zfill_busy (s : State) : (zfill s).busy = s.busy := by cases s; rfl
@[simp] theorem zfill_latency (s : State) : (zfill s).latency = s.latency := by cases s; rfl
@[simp] theorem zfill_drive (s : State) : (zfill s).drive = s.drive := by cases s; rfl
@[simp] theorem zfill_held (s : State) : (zfill s).held = s.held := by cases s; rfl
@[simp] theorem zfill_delivered (s : State) : (zfill s).delivered = s.delivered := by cases s; rfl
@[simp] theorem zfill_draws (s : State) : (zfill s).draws = s.draws := by cases s; rfl

@[simp] theorem putlen_h (s : State) : (putlen s).h = s.h := by cases s; rfl
@[simp] theorem putlen_buf (s : State) : (putlen s).buf = Memory.write64 s.buf 56 s.lenreg := by cases s; rfl
@[simp] theorem putlen_bufDraw (s : State) : (putlen s).bufDraw = s.bufDraw := by cases s; rfl
@[simp] theorem putlen_filled (s : State) : (putlen s).filled = s.filled := by cases s; rfl
@[simp] theorem putlen_nblk (s : State) : (putlen s).nblk = s.nblk := by cases s; rfl
@[simp] theorem putlen_scratch (s : State) : (putlen s).scratch = s.scratch := by cases s; rfl
@[simp] theorem putlen_lenreg (s : State) : (putlen s).lenreg = s.lenreg := by cases s; rfl
@[simp] theorem putlen_consumed (s : State) : (putlen s).consumed = s.consumed := by cases s; rfl
@[simp] theorem putlen_rsp (s : State) : (putlen s).rsp = s.rsp := by cases s; rfl
@[simp] theorem putlen_busy (s : State) : (putlen s).busy = s.busy := by cases s; rfl
@[simp] theorem putlen_latency (s : State) : (putlen s).latency = s.latency := by cases s; rfl
@[simp] theorem putlen_drive (s : State) : (putlen s).drive = s.drive := by cases s; rfl
@[simp] theorem putlen_held (s : State) : (putlen s).held = s.held := by cases s; rfl
@[simp] theorem putlen_delivered (s : State) : (putlen s).delivered = s.delivered := by cases s; rfl
@[simp] theorem putlen_draws (s : State) : (putlen s).draws = s.draws := by cases s; rfl

@[simp] theorem copyRest_h (data : List Byte) (s : State) : (copyRest data s).h = s.h := by cases s; rfl
@[simp] theorem copyRest_buf (data : List Byte) (s : State) : (copyRest data s).buf = Memory.writeBytes s.buf s.filled.toNat data := by cases s; rfl
@[simp] theorem copyRest_bufDraw (data : List Byte) (s : State) : (copyRest data s).bufDraw = s.bufDraw := by cases s; rfl
@[simp] theorem copyRest_filled (data : List Byte) (s : State) : (copyRest data s).filled = s.filled + BitVec.ofNat 7 data.length := by cases s; rfl
@[simp] theorem copyRest_nblk (data : List Byte) (s : State) : (copyRest data s).nblk = s.nblk := by cases s; rfl
@[simp] theorem copyRest_scratch (data : List Byte) (s : State) : (copyRest data s).scratch = s.scratch := by cases s; rfl
@[simp] theorem copyRest_lenreg (data : List Byte) (s : State) : (copyRest data s).lenreg = s.lenreg := by cases s; rfl
@[simp] theorem copyRest_consumed (data : List Byte) (s : State) : (copyRest data s).consumed = s.consumed := by cases s; rfl
@[simp] theorem copyRest_rsp (data : List Byte) (s : State) : (copyRest data s).rsp = s.rsp := by cases s; rfl
@[simp] theorem copyRest_busy (data : List Byte) (s : State) : (copyRest data s).busy = s.busy := by cases s; rfl
@[simp] theorem copyRest_latency (data : List Byte) (s : State) : (copyRest data s).latency = s.latency := by cases s; rfl
@[simp] theorem copyRest_drive (data : List Byte) (s : State) : (copyRest data s).drive = s.drive := by cases s; rfl
@[simp] theorem copyRest_held (data : List Byte) (s : State) : (copyRest data s).held = s.held := by cases s; rfl
@[simp] theorem copyRest_delivered (data : List Byte) (s : State) : (copyRest data s).delivered = s.delivered := by cases s; rfl
@[simp] theorem copyRest_draws (data : List Byte) (s : State) : (copyRest data s).draws = s.draws := by cases s; rfl

@[simp] theorem respond_h (x : Digest) (s : State) : (respond x s).h = s.h := by cases s; rfl
@[simp] theorem respond_buf (x : Digest) (s : State) : (respond x s).buf = s.buf := by cases s; rfl
@[simp] theorem respond_bufDraw (x : Digest) (s : State) : (respond x s).bufDraw = s.bufDraw := by cases s; rfl
@[simp] theorem respond_filled (x : Digest) (s : State) : (respond x s).filled = s.filled := by cases s; rfl
@[simp] theorem respond_nblk (x : Digest) (s : State) : (respond x s).nblk = s.nblk := by cases s; rfl
@[simp] theorem respond_scratch (x : Digest) (s : State) : (respond x s).scratch = s.scratch := by cases s; rfl
@[simp] theorem respond_lenreg (x : Digest) (s : State) : (respond x s).lenreg = s.lenreg := by cases s; rfl
@[simp] theorem respond_consumed (x : Digest) (s : State) : (respond x s).consumed = s.consumed := by cases s; rfl
@[simp] theorem respond_rsp (x : Digest) (s : State) : (respond x s).rsp = some x := by cases s; rfl
@[simp] theorem respond_busy (x : Digest) (s : State) : (respond x s).busy = s.busy := by cases s; rfl
@[simp] theorem respond_latency (x : Digest) (s : State) : (respond x s).latency = s.latency := by cases s; rfl
@[simp] theorem respond_drive (x : Digest) (s : State) : (respond x s).drive = s.drive := by cases s; rfl
@[simp] theorem respond_held (x : Digest) (s : State) : (respond x s).held = s.held := by cases s; rfl
@[simp] theorem respond_delivered (x : Digest) (s : State) : (respond x s).delivered = s.delivered := by cases s; rfl
@[simp] theorem respond_draws (x : Digest) (s : State) : (respond x s).draws = s.draws := by cases s; rfl

@[simp] theorem finishEnd_h (s : State) : (finishEnd s).h = s.h := by cases s; rfl
@[simp] theorem finishEnd_buf (s : State) : (finishEnd s).buf = s.buf := by cases s; rfl
@[simp] theorem finishEnd_bufDraw (s : State) : (finishEnd s).bufDraw = s.bufDraw := by cases s; rfl
@[simp] theorem finishEnd_filled (s : State) : (finishEnd s).filled = (Config.freeFilled s.draws).setWidth 7 := by cases s; rfl
@[simp] theorem finishEnd_nblk (s : State) : (finishEnd s).nblk = s.nblk := by cases s; rfl
@[simp] theorem finishEnd_scratch (s : State) : (finishEnd s).scratch = Scratch.free s.draws := by cases s; rfl
@[simp] theorem finishEnd_lenreg (s : State) : (finishEnd s).lenreg = s.lenreg := by cases s; rfl
@[simp] theorem finishEnd_consumed (s : State) : (finishEnd s).consumed = true := by cases s; rfl
@[simp] theorem finishEnd_rsp (s : State) : (finishEnd s).rsp = some s.h.digest := by cases s; rfl
@[simp] theorem finishEnd_busy (s : State) : (finishEnd s).busy = s.busy := by cases s; rfl
@[simp] theorem finishEnd_latency (s : State) : (finishEnd s).latency = s.latency := by cases s; rfl
@[simp] theorem finishEnd_drive (s : State) : (finishEnd s).drive = s.drive := by cases s; rfl
@[simp] theorem finishEnd_held (s : State) : (finishEnd s).held = s.held := by cases s; rfl
@[simp] theorem finishEnd_delivered (s : State) : (finishEnd s).delivered = s.delivered := by cases s; rfl
@[simp] theorem finishEnd_draws (s : State) : (finishEnd s).draws = s.draws + 1 := by cases s; rfl

@[simp] theorem keepPresented_h (e : PortIn) (s : State) : (keepPresented e s).h = s.h := by cases s; rfl
@[simp] theorem keepPresented_buf (e : PortIn) (s : State) : (keepPresented e s).buf = s.buf := by cases s; rfl
@[simp] theorem keepPresented_bufDraw (e : PortIn) (s : State) : (keepPresented e s).bufDraw = s.bufDraw := by cases s; rfl
@[simp] theorem keepPresented_filled (e : PortIn) (s : State) : (keepPresented e s).filled = s.filled := by cases s; rfl
@[simp] theorem keepPresented_nblk (e : PortIn) (s : State) : (keepPresented e s).nblk = s.nblk := by cases s; rfl
@[simp] theorem keepPresented_scratch (e : PortIn) (s : State) : (keepPresented e s).scratch = s.scratch := by cases s; rfl
@[simp] theorem keepPresented_lenreg (e : PortIn) (s : State) : (keepPresented e s).lenreg = s.lenreg := by cases s; rfl
@[simp] theorem keepPresented_consumed (e : PortIn) (s : State) : (keepPresented e s).consumed = s.consumed := by cases s; rfl
@[simp] theorem keepPresented_rsp (e : PortIn) (s : State) : (keepPresented e s).rsp = s.rsp := by cases s; rfl
@[simp] theorem keepPresented_busy (e : PortIn) (s : State) : (keepPresented e s).busy = s.busy := by cases s; rfl
@[simp] theorem keepPresented_latency (e : PortIn) (s : State) : (keepPresented e s).latency = s.latency := by cases s; rfl
@[simp] theorem keepPresented_drive (e : PortIn) (s : State) : (keepPresented e s).drive = s.drive := by cases s; rfl
@[simp] theorem keepPresented_held (e : PortIn) (s : State) : (keepPresented e s).held = e.presented := by cases s; rfl
@[simp] theorem keepPresented_delivered (e : PortIn) (s : State) : (keepPresented e s).delivered = s.delivered := by cases s; rfl
@[simp] theorem keepPresented_draws (e : PortIn) (s : State) : (keepPresented e s).draws = s.draws := by cases s; rfl

@[simp] theorem passBusyEdge_h (s : State) : (passBusyEdge s).h = s.h := by cases s; rfl
@[simp] theorem passBusyEdge_buf (s : State) : (passBusyEdge s).buf = s.buf := by cases s; rfl
@[simp] theorem passBusyEdge_bufDraw (s : State) : (passBusyEdge s).bufDraw = s.bufDraw := by cases s; rfl
@[simp] theorem passBusyEdge_filled (s : State) : (passBusyEdge s).filled = s.filled := by cases s; rfl
@[simp] theorem passBusyEdge_nblk (s : State) : (passBusyEdge s).nblk = s.nblk := by cases s; rfl
@[simp] theorem passBusyEdge_scratch (s : State) : (passBusyEdge s).scratch = s.scratch := by cases s; rfl
@[simp] theorem passBusyEdge_lenreg (s : State) : (passBusyEdge s).lenreg = s.lenreg := by cases s; rfl
@[simp] theorem passBusyEdge_consumed (s : State) : (passBusyEdge s).consumed = s.consumed := by cases s; rfl
@[simp] theorem passBusyEdge_rsp (s : State) : (passBusyEdge s).rsp = s.rsp := by cases s; rfl
@[simp] theorem passBusyEdge_busy (s : State) : (passBusyEdge s).busy = s.busy - 1 := by cases s; rfl
@[simp] theorem passBusyEdge_latency (s : State) : (passBusyEdge s).latency = s.latency := by cases s; rfl
@[simp] theorem passBusyEdge_drive (s : State) : (passBusyEdge s).drive = s.drive := by cases s; rfl
@[simp] theorem passBusyEdge_held (s : State) : (passBusyEdge s).held = s.held := by cases s; rfl
@[simp] theorem passBusyEdge_delivered (s : State) : (passBusyEdge s).delivered = s.delivered := by cases s; rfl
@[simp] theorem passBusyEdge_draws (s : State) : (passBusyEdge s).draws = s.draws := by cases s; rfl

@[simp] theorem takeResponse_h (x : Digest) (s : State) : (takeResponse x s).h = s.h := by cases s; rfl
@[simp] theorem takeResponse_buf (x : Digest) (s : State) : (takeResponse x s).buf = s.buf := by cases s; rfl
@[simp] theorem takeResponse_bufDraw (x : Digest) (s : State) : (takeResponse x s).bufDraw = s.bufDraw := by cases s; rfl
@[simp] theorem takeResponse_filled (x : Digest) (s : State) : (takeResponse x s).filled = s.filled := by cases s; rfl
@[simp] theorem takeResponse_nblk (x : Digest) (s : State) : (takeResponse x s).nblk = s.nblk := by cases s; rfl
@[simp] theorem takeResponse_scratch (x : Digest) (s : State) : (takeResponse x s).scratch = s.scratch := by cases s; rfl
@[simp] theorem takeResponse_lenreg (x : Digest) (s : State) : (takeResponse x s).lenreg = Config.freeLenreg s.draws := by cases s; rfl
@[simp] theorem takeResponse_consumed (x : Digest) (s : State) : (takeResponse x s).consumed = s.consumed := by cases s; rfl
@[simp] theorem takeResponse_rsp (x : Digest) (s : State) : (takeResponse x s).rsp = none := by cases s; rfl
@[simp] theorem takeResponse_busy (x : Digest) (s : State) : (takeResponse x s).busy = s.busy := by cases s; rfl
@[simp] theorem takeResponse_latency (x : Digest) (s : State) : (takeResponse x s).latency = s.latency := by cases s; rfl
@[simp] theorem takeResponse_drive (x : Digest) (s : State) : (takeResponse x s).drive = s.drive := by cases s; rfl
@[simp] theorem takeResponse_held (x : Digest) (s : State) : (takeResponse x s).held = s.held := by cases s; rfl
@[simp] theorem takeResponse_delivered (x : Digest) (s : State) : (takeResponse x s).delivered = s.delivered ++ [x] := by cases s; rfl
@[simp] theorem takeResponse_draws (x : Digest) (s : State) : (takeResponse x s).draws = s.draws + 1 := by cases s; rfl

@[simp] theorem releaseHeld_h (s : State) : (releaseHeld s).h = s.h := by cases s; rfl
@[simp] theorem releaseHeld_buf (s : State) : (releaseHeld s).buf = s.buf := by cases s; rfl
@[simp] theorem releaseHeld_bufDraw (s : State) : (releaseHeld s).bufDraw = s.bufDraw := by cases s; rfl
@[simp] theorem releaseHeld_filled (s : State) : (releaseHeld s).filled = s.filled := by cases s; rfl
@[simp] theorem releaseHeld_nblk (s : State) : (releaseHeld s).nblk = s.nblk := by cases s; rfl
@[simp] theorem releaseHeld_scratch (s : State) : (releaseHeld s).scratch = s.scratch := by cases s; rfl
@[simp] theorem releaseHeld_lenreg (s : State) : (releaseHeld s).lenreg = s.lenreg := by cases s; rfl
@[simp] theorem releaseHeld_consumed (s : State) : (releaseHeld s).consumed = s.consumed := by cases s; rfl
@[simp] theorem releaseHeld_rsp (s : State) : (releaseHeld s).rsp = s.rsp := by cases s; rfl
@[simp] theorem releaseHeld_busy (s : State) : (releaseHeld s).busy = s.busy := by cases s; rfl
@[simp] theorem releaseHeld_latency (s : State) : (releaseHeld s).latency = s.latency := by cases s; rfl
@[simp] theorem releaseHeld_drive (s : State) : (releaseHeld s).drive = s.drive := by cases s; rfl
@[simp] theorem releaseHeld_held (s : State) : (releaseHeld s).held = none := by cases s; rfl
@[simp] theorem releaseHeld_delivered (s : State) : (releaseHeld s).delivered = s.delivered := by cases s; rfl
@[simp] theorem releaseHeld_draws (s : State) : (releaseHeld s).draws = s.draws := by cases s; rfl

@[simp] theorem occupy_h (n : Nat) (s : State) : (occupy n s).h = s.h := by cases s; rfl
@[simp] theorem occupy_buf (n : Nat) (s : State) : (occupy n s).buf = s.buf := by cases s; rfl
@[simp] theorem occupy_bufDraw (n : Nat) (s : State) : (occupy n s).bufDraw = s.bufDraw := by cases s; rfl
@[simp] theorem occupy_filled (n : Nat) (s : State) : (occupy n s).filled = s.filled := by cases s; rfl
@[simp] theorem occupy_nblk (n : Nat) (s : State) : (occupy n s).nblk = s.nblk := by cases s; rfl
@[simp] theorem occupy_scratch (n : Nat) (s : State) : (occupy n s).scratch = s.scratch := by cases s; rfl
@[simp] theorem occupy_lenreg (n : Nat) (s : State) : (occupy n s).lenreg = s.lenreg := by cases s; rfl
@[simp] theorem occupy_consumed (n : Nat) (s : State) : (occupy n s).consumed = s.consumed := by cases s; rfl
@[simp] theorem occupy_rsp (n : Nat) (s : State) : (occupy n s).rsp = s.rsp := by cases s; rfl
@[simp] theorem occupy_busy (n : Nat) (s : State) : (occupy n s).busy = n := by cases s; rfl
@[simp] theorem occupy_latency (n : Nat) (s : State) : (occupy n s).latency = s.latency := by cases s; rfl
@[simp] theorem occupy_drive (n : Nat) (s : State) : (occupy n s).drive = s.drive := by cases s; rfl
@[simp] theorem occupy_held (n : Nat) (s : State) : (occupy n s).held = s.held := by cases s; rfl
@[simp] theorem occupy_delivered (n : Nat) (s : State) : (occupy n s).delivered = s.delivered := by cases s; rfl
@[simp] theorem occupy_draws (n : Nat) (s : State) : (occupy n s).draws = s.draws := by cases s; rfl

@[simp] theorem dropEdge_h (s : State) : (dropEdge s).h = s.h := by cases s; rfl
@[simp] theorem dropEdge_buf (s : State) : (dropEdge s).buf = s.buf := by cases s; rfl
@[simp] theorem dropEdge_bufDraw (s : State) : (dropEdge s).bufDraw = s.bufDraw := by cases s; rfl
@[simp] theorem dropEdge_filled (s : State) : (dropEdge s).filled = s.filled := by cases s; rfl
@[simp] theorem dropEdge_nblk (s : State) : (dropEdge s).nblk = s.nblk := by cases s; rfl
@[simp] theorem dropEdge_scratch (s : State) : (dropEdge s).scratch = s.scratch := by cases s; rfl
@[simp] theorem dropEdge_lenreg (s : State) : (dropEdge s).lenreg = s.lenreg := by cases s; rfl
@[simp] theorem dropEdge_consumed (s : State) : (dropEdge s).consumed = s.consumed := by cases s; rfl
@[simp] theorem dropEdge_rsp (s : State) : (dropEdge s).rsp = s.rsp := by cases s; rfl
@[simp] theorem dropEdge_busy (s : State) : (dropEdge s).busy = s.busy := by cases s; rfl
@[simp] theorem dropEdge_latency (s : State) : (dropEdge s).latency = s.latency := by cases s; rfl
@[simp] theorem dropEdge_drive (s : State) : (dropEdge s).drive = s.drive.tail := by cases s; rfl
@[simp] theorem dropEdge_held (s : State) : (dropEdge s).held = s.held := by cases s; rfl
@[simp] theorem dropEdge_delivered (s : State) : (dropEdge s).delivered = s.delivered := by cases s; rfl
@[simp] theorem dropEdge_draws (s : State) : (dropEdge s).draws = s.draws := by cases s; rfl

@[simp] theorem placeEdge_h (e : PortIn) (s : State) : (placeEdge e s).h = s.h := by cases s; rfl
@[simp] theorem placeEdge_buf (e : PortIn) (s : State) : (placeEdge e s).buf = s.buf := by cases s; rfl
@[simp] theorem placeEdge_bufDraw (e : PortIn) (s : State) : (placeEdge e s).bufDraw = s.bufDraw := by cases s; rfl
@[simp] theorem placeEdge_filled (e : PortIn) (s : State) : (placeEdge e s).filled = s.filled := by cases s; rfl
@[simp] theorem placeEdge_nblk (e : PortIn) (s : State) : (placeEdge e s).nblk = s.nblk := by cases s; rfl
@[simp] theorem placeEdge_scratch (e : PortIn) (s : State) : (placeEdge e s).scratch = s.scratch := by cases s; rfl
@[simp] theorem placeEdge_lenreg (e : PortIn) (s : State) : (placeEdge e s).lenreg = s.lenreg := by cases s; rfl
@[simp] theorem placeEdge_consumed (e : PortIn) (s : State) : (placeEdge e s).consumed = s.consumed := by cases s; rfl
@[simp] theorem placeEdge_rsp (e : PortIn) (s : State) : (placeEdge e s).rsp = s.rsp := by cases s; rfl
@[simp] theorem placeEdge_busy (e : PortIn) (s : State) : (placeEdge e s).busy = s.busy := by cases s; rfl
@[simp] theorem placeEdge_latency (e : PortIn) (s : State) : (placeEdge e s).latency = s.latency := by cases s; rfl
@[simp] theorem placeEdge_drive (e : PortIn) (s : State) : (placeEdge e s).drive = e :: s.drive.tail := by cases s; rfl
@[simp] theorem placeEdge_held (e : PortIn) (s : State) : (placeEdge e s).held = s.held := by cases s; rfl
@[simp] theorem placeEdge_delivered (e : PortIn) (s : State) : (placeEdge e s).delivered = s.delivered := by cases s; rfl
@[simp] theorem placeEdge_draws (e : PortIn) (s : State) : (placeEdge e s).draws = s.draws := by cases s; rfl

@[simp] theorem makeReady_h (s : State) : (makeReady s).h = s.h := by cases s; rfl
@[simp] theorem makeReady_buf (s : State) : (makeReady s).buf = s.buf := by cases s; rfl
@[simp] theorem makeReady_bufDraw (s : State) : (makeReady s).bufDraw = s.bufDraw := by cases s; rfl
@[simp] theorem makeReady_filled (s : State) : (makeReady s).filled = s.filled := by cases s; rfl
@[simp] theorem makeReady_nblk (s : State) : (makeReady s).nblk = s.nblk := by cases s; rfl
@[simp] theorem makeReady_scratch (s : State) : (makeReady s).scratch = s.scratch := by cases s; rfl
@[simp] theorem makeReady_lenreg (s : State) : (makeReady s).lenreg = s.lenreg := by cases s; rfl
@[simp] theorem makeReady_consumed (s : State) : (makeReady s).consumed = s.consumed := by cases s; rfl
@[simp] theorem makeReady_rsp (s : State) : (makeReady s).rsp = none := by cases s; rfl
@[simp] theorem makeReady_busy (s : State) : (makeReady s).busy = 0 := by cases s; rfl
@[simp] theorem makeReady_latency (s : State) : (makeReady s).latency = s.latency := by cases s; rfl
@[simp] theorem makeReady_drive (s : State) : (makeReady s).drive = s.drive := by cases s; rfl
@[simp] theorem makeReady_held (s : State) : (makeReady s).held = none := by cases s; rfl
@[simp] theorem makeReady_delivered (s : State) : (makeReady s).delivered = s.delivered := by cases s; rfl
@[simp] theorem makeReady_draws (s : State) : (makeReady s).draws = s.draws := by cases s; rfl

@[simp] theorem compress_h (s : State) : (compress s).h = addback s.h (roundsDone s) := by rw [compress, addRounds_h]
@[simp] theorem compress_buf (s : State) : (compress s).buf = s.buf := by rw [compress, addRounds_buf]
@[simp] theorem compress_bufDraw (s : State) : (compress s).bufDraw = s.bufDraw := by rw [compress, addRounds_bufDraw]
@[simp] theorem compress_filled (s : State) : (compress s).filled = s.filled := by rw [compress, addRounds_filled]
@[simp] theorem compress_nblk (s : State) : (compress s).nblk = s.nblk + 1#64 := by rw [compress, addRounds_nblk]
@[simp] theorem compress_scratch (s : State) : (compress s).scratch = roundsDone s := by rw [compress, addRounds_scratch]
@[simp] theorem compress_lenreg (s : State) : (compress s).lenreg = s.lenreg := by rw [compress, addRounds_lenreg]
@[simp] theorem compress_consumed (s : State) : (compress s).consumed = s.consumed := by rw [compress, addRounds_consumed]
@[simp] theorem compress_rsp (s : State) : (compress s).rsp = s.rsp := by rw [compress, addRounds_rsp]
@[simp] theorem compress_busy (s : State) : (compress s).busy = s.busy := by rw [compress, addRounds_busy]
@[simp] theorem compress_latency (s : State) : (compress s).latency = s.latency := by rw [compress, addRounds_latency]
@[simp] theorem compress_drive (s : State) : (compress s).drive = s.drive := by rw [compress, addRounds_drive]
@[simp] theorem compress_held (s : State) : (compress s).held = s.held := by rw [compress, addRounds_held]
@[simp] theorem compress_delivered (s : State) : (compress s).delivered = s.delivered := by rw [compress, addRounds_delivered]
@[simp] theorem compress_draws (s : State) : (compress s).draws = s.draws := by rw [compress, addRounds_draws]

/-! SPILL is of use through what it keeps, H and NBLK apart: proved by rewriting, so that nothing unfolds the
rounds. -/

@[simp] theorem spill_h (s : State) : (spill s).h = (compress (zeroFill s.filled.toNat 64 s)).h := by rw [spill, zeroFill_h]
@[simp] theorem spill_bufDraw (s : State) : (spill s).bufDraw = s.bufDraw := by rw [spill, zeroFill_bufDraw, compress_bufDraw, zeroFill_bufDraw]
@[simp] theorem spill_filled (s : State) : (spill s).filled = s.filled := by rw [spill, zeroFill_filled, compress_filled, zeroFill_filled]
@[simp] theorem spill_nblk (s : State) : (spill s).nblk = s.nblk + 1#64 := by rw [spill, zeroFill_nblk, compress_nblk, zeroFill_nblk]
@[simp] theorem spill_lenreg (s : State) : (spill s).lenreg = s.lenreg := by rw [spill, zeroFill_lenreg, compress_lenreg, zeroFill_lenreg]
@[simp] theorem spill_consumed (s : State) : (spill s).consumed = s.consumed := by rw [spill, zeroFill_consumed, compress_consumed, zeroFill_consumed]
@[simp] theorem spill_rsp (s : State) : (spill s).rsp = s.rsp := by rw [spill, zeroFill_rsp, compress_rsp, zeroFill_rsp]
@[simp] theorem spill_busy (s : State) : (spill s).busy = s.busy := by rw [spill, zeroFill_busy, compress_busy, zeroFill_busy]
@[simp] theorem spill_latency (s : State) : (spill s).latency = s.latency := by rw [spill, zeroFill_latency, compress_latency, zeroFill_latency]
@[simp] theorem spill_drive (s : State) : (spill s).drive = s.drive := by rw [spill, zeroFill_drive, compress_drive, zeroFill_drive]
@[simp] theorem spill_held (s : State) : (spill s).held = s.held := by rw [spill, zeroFill_held, compress_held, zeroFill_held]
@[simp] theorem spill_delivered (s : State) : (spill s).delivered = s.delivered := by rw [spill, zeroFill_delivered, compress_delivered, zeroFill_delivered]
@[simp] theorem spill_draws (s : State) : (spill s).draws = s.draws := by rw [spill, zeroFill_draws, compress_draws, zeroFill_draws]

@[simp] theorem fillBlock_bufDraw (s : State) : (fillBlock s).bufDraw = s.bufDraw := by
  rw [fillBlock]; split
  · rw [zfill_bufDraw]
  · rw [spill_bufDraw]
@[simp] theorem fillBlock_filled (s : State) : (fillBlock s).filled = s.filled := by
  rw [fillBlock]; split
  · rw [zfill_filled]
  · rw [spill_filled]
@[simp] theorem fillBlock_lenreg (s : State) : (fillBlock s).lenreg = s.lenreg := by
  rw [fillBlock]; split
  · rw [zfill_lenreg]
  · rw [spill_lenreg]
@[simp] theorem fillBlock_consumed (s : State) : (fillBlock s).consumed = s.consumed := by
  rw [fillBlock]; split
  · rw [zfill_consumed]
  · rw [spill_consumed]
@[simp] theorem fillBlock_rsp (s : State) : (fillBlock s).rsp = s.rsp := by
  rw [fillBlock]; split
  · rw [zfill_rsp]
  · rw [spill_rsp]
@[simp] theorem fillBlock_busy (s : State) : (fillBlock s).busy = s.busy := by
  rw [fillBlock]; split
  · rw [zfill_busy]
  · rw [spill_busy]
@[simp] theorem fillBlock_latency (s : State) : (fillBlock s).latency = s.latency := by
  rw [fillBlock]; split
  · rw [zfill_latency]
  · rw [spill_latency]
@[simp] theorem fillBlock_drive (s : State) : (fillBlock s).drive = s.drive := by
  rw [fillBlock]; split
  · rw [zfill_drive]
  · rw [spill_drive]
@[simp] theorem fillBlock_held (s : State) : (fillBlock s).held = s.held := by
  rw [fillBlock]; split
  · rw [zfill_held]
  · rw [spill_held]
@[simp] theorem fillBlock_delivered (s : State) : (fillBlock s).delivered = s.delivered := by
  rw [fillBlock]; split
  · rw [zfill_delivered]
  · rw [spill_delivered]
@[simp] theorem fillBlock_draws (s : State) : (fillBlock s).draws = s.draws := by
  rw [fillBlock]; split
  · rw [zfill_draws]
  · rw [spill_draws]

end Sys2Proof.Machine
end

