-- ==== Sys2Proof/Laws/Buffer.lean ====
section
/-! SUPPORT. What each operation on the buffer does, read byte by byte. -/

namespace Sys2Proof.Machine

/-- A byte depends on the buffer's contents alone. -/
theorem byteAt_congr {s t : State} (hb : s.buf = t.buf) (hd : s.bufDraw = t.bufDraw) (a : Nat) :
    s.byteAt a = t.byteAt a := by simp [State.byteAt, hb, hd]

/-- Reading after one store. -/
theorem byteAt_putByte (s : State) (a b : Nat) (v : Byte) :
    (putByte a v s).byteAt b = if b = a then v else s.byteAt b := by
  simp only [State.byteAt, putByte_buf, putByte_bufDraw, Memory.read_write]
  by_cases h : b = a <;> simp [h]

/-- A store at an index of the buffer is `putByte`. -/
theorem memWriteByte_of_lt {a : Nat} (h : a < 64) (v : Byte) (s : State) :
    memWriteByte a v s = .ok (putByte a v s) := by simp [memWriteByte, blockSize, h]

/-- A store at any other index faults. -/
theorem memWriteByte_of_le {a : Nat} (h : 64 ≤ a) (v : Byte) (s : State) :
    memWriteByte a v s = .error (.noBufferByte a) := by
  simp [memWriteByte, blockSize, Nat.not_lt.mpr h]

/-- Reading after zero fill (R98, R99). -/
theorem byteAt_zeroFill (lo hi : Nat) (s : State) (b : Nat) :
    (zeroFill lo hi s).byteAt b = if lo ≤ b ∧ b < hi then 0#8 else s.byteAt b := by
  simp only [State.byteAt, zeroFill_buf, zeroFill_bufDraw, Memory.read_zeroFill]
  by_cases h : lo ≤ b ∧ b < hi <;> simp [h]

/-- Reading after the 8-byte store (R34). -/
theorem byteAt_memWrite64 (addr : Nat) (v : Long) (s : State) (b : Nat) :
    (memWrite64 addr v s).byteAt b =
      if addr ≤ b ∧ b < addr + 8 then beByte v (b - addr) else s.byteAt b := by
  simp only [State.byteAt, memWrite64_buf, memWrite64_bufDraw, Memory.read_write64]
  by_cases h : addr ≤ b ∧ b < addr + 8 <;> simp [h]

/-- Reading after a copy of bytes (R67). -/
theorem byteAt_copyBytes (data : List Byte) (a : Nat) (s : State) (b : Nat) :
    (copyBytes a data s).byteAt b =
      if a ≤ b ∧ b < a + data.length then data.getD (b - a) 0#8 else s.byteAt b := by
  simp only [State.byteAt, copyBytes_buf, copyBytes_bufDraw, Memory.read_writeBytes]
  by_cases h : a ≤ b ∧ b < a + data.length <;> simp [h]

/-- COMPRESS does not modify the buffer (R75). -/
@[simp] theorem byteAt_compress (s : State) (a : Nat) : (compress s).byteAt a = s.byteAt a :=
  byteAt_congr (compress_buf s) (compress_bufDraw s) a

/-- The stores of SPILL (R99). -/
theorem spill_buf (s : State) :
    (spill s).buf = Memory.zeroFill (Memory.zeroFill s.buf s.filled.toNat 64) 0 56 := by
  rw [spill, zeroFill_buf, compress_buf, zeroFill_buf]

/-- ZFILL keeps the canonical form. -/
theorem wf_zfill {s : State} (h : Memory.wf s.buf = true) : Memory.wf (zfill s).buf = true := by
  rw [zfill_buf]
  exact Memory.wf_zeroFill (by decide) h

/-- SPILL keeps the canonical form. -/
theorem wf_spill {s : State} (h : Memory.wf s.buf = true) : Memory.wf (spill s).buf = true := by
  rw [spill_buf]
  exact Memory.wf_zeroFill (by decide) (Memory.wf_zeroFill (by decide) h)

/-- Filling the block up to its length field keeps the canonical form. -/
theorem wf_fillBlock {s : State} (h : Memory.wf s.buf = true) : Memory.wf (fillBlock s).buf = true := by
  rw [fillBlock]
  split
  · exact wf_zfill h
  · exact wf_spill h

/-- PUTLEN keeps the canonical form. -/
theorem wf_putlen {s : State} (h : Memory.wf s.buf = true) : Memory.wf (putlen s).buf = true := by
  rw [putlen_buf]
  exact Memory.wf_write64 _ (by decide) h

/-- A store at an index of the buffer keeps the canonical form. -/
theorem wf_putByte {s : State} {a : Nat} (v : Byte) (ha : a < 64) (h : Memory.wf s.buf = true) :
    Memory.wf (putByte a v s).buf = true := by
  rw [putByte_buf]
  exact Memory.wf_write v ha h

/-- A copy of bytes that fits keeps the canonical form (R67). -/
theorem wf_copyBytes {s : State} {a : Nat} (data : List Byte) (ha : a + data.length ≤ 64)
    (h : Memory.wf s.buf = true) : Memory.wf (copyBytes a data s).buf = true := by
  rw [copyBytes_buf]
  exact Memory.wf_writeBytes _ ha h

/-- Reading after ZFILL (R98). -/
theorem byteAt_zfill (s : State) (b : Nat) :
    (zfill s).byteAt b = if s.filled.toNat ≤ b ∧ b < 56 then 0#8 else s.byteAt b :=
  byteAt_zeroFill _ _ s b

/-- Reading after SPILL (R99). -/
theorem byteAt_spill (s : State) (b : Nat) :
    (spill s).byteAt b = if b < 56 ∨ (s.filled.toNat ≤ b ∧ b < 64) then 0#8 else s.byteAt b := by
  rw [spill, byteAt_zeroFill, byteAt_compress, byteAt_zeroFill]
  by_cases h : b < 56 <;> simp [h]

/-- Reading after PUTLEN (R100, R34). -/
theorem byteAt_putlen (s : State) (b : Nat) :
    (putlen s).byteAt b = if 56 ≤ b ∧ b < 64 then beByte s.lenreg (b - 56) else s.byteAt b :=
  byteAt_memWrite64 _ _ s b

@[simp] theorem byteAt_endDraw (s : State) (a : Nat) : (endDraw s).byteAt a = s.byteAt a := rfl
@[simp] theorem byteAt_releaseScratch (s : State) (a : Nat) : (releaseScratch s).byteAt a = s.byteAt a := rfl
@[simp] theorem byteAt_toInitial (s : State) (a : Nat) : (toInitial s).byteAt a = s.byteAt a := rfl
@[simp] theorem byteAt_bumpFilled (s : State) (a : Nat) : (bumpFilled s).byteAt a = s.byteAt a := rfl
@[simp] theorem byteAt_clearFilled (s : State) (a : Nat) : (clearFilled s).byteAt a = s.byteAt a := rfl
@[simp] theorem byteAt_capture (s : State) (a : Nat) : (capture s).byteAt a = s.byteAt a := rfl
@[simp] theorem byteAt_respond (s : State) (x : Digest) (a : Nat) : (respond x s).byteAt a = s.byteAt a := rfl
@[simp] theorem byteAt_finishEnd (s : State) (a : Nat) : (finishEnd s).byteAt a = s.byteAt a := rfl
@[simp] theorem byteAt_takeResponse (s : State) (x : Digest) (a : Nat) :
    (takeResponse x s).byteAt a = s.byteAt a := rfl

end Sys2Proof.Machine
end

