-- ==== Sys2Proof/Laws/Compress.lean ====
section
/-! SUPPORT. What the micro-operations of COMPRESS do to the scratch registers, one at a time. -/

namespace Sys2Proof.Machine

/-- What each step of a fold keeps, the fold keeps. -/
theorem foldl_keeps {σ β γ : Type} (p : σ → γ) (f : σ → β → σ) (h : ∀ s b, p (f s b) = p s) (l : List β)
    (s : σ) : p (l.foldl f s) = p s := by
  induction l generalizing s with
  | nil => rfl
  | cons b l ih => rw [List.foldl_cons, ih, h]

/-- Reading schedule words after writing one. -/
theorem wAt_setW (x : Scratch) (i j : Nat) (v : Word) :
    (x.setW i v).wAt j = if j = i ∧ j < 80 then v else x.wAt j := by
  by_cases hj : j < 80
  · by_cases h : j = i
    · subst h; simp [Scratch.wAt, Scratch.setW, hj]
    · simp [Scratch.wAt, Scratch.setW, hj, h, Ne.symm h]
  · simp [Scratch.wAt, hj]

@[simp] theorem setW_a (x : Scratch) (i : Nat) (v : Word) : (x.setW i v).a = x.a := rfl
@[simp] theorem setW_b (x : Scratch) (i : Nat) (v : Word) : (x.setW i v).b = x.b := rfl
@[simp] theorem setW_c (x : Scratch) (i : Nat) (v : Word) : (x.setW i v).c = x.c := rfl
@[simp] theorem setW_d (x : Scratch) (i : Nat) (v : Word) : (x.setW i v).d = x.d := rfl
@[simp] theorem setW_e (x : Scratch) (i : Nat) (v : Word) : (x.setW i v).e = x.e := rfl
@[simp] theorem wAt_setT (x : Scratch) (i j : Nat) : (setT i x).wAt j = x.wAt j := rfl

/-- `SCHED(i)` writes one word, computed from words before it (R79, R80). -/
theorem wAt_sched (x : Scratch) (i j : Nat) :
    (sched i x).wAt j = if j = i ∧ j < 80 then schedWord x i else x.wAt j := by
  rw [sched, wAt_setW, wAt_setT]

@[simp] theorem sched_a (i : Nat) (x : Scratch) : (sched i x).a = x.a := rfl
@[simp] theorem sched_b (i : Nat) (x : Scratch) : (sched i x).b = x.b := rfl
@[simp] theorem sched_c (i : Nat) (x : Scratch) : (sched i x).c = x.c := rfl
@[simp] theorem sched_d (i : Nat) (x : Scratch) : (sched i x).d = x.d := rfl
@[simp] theorem sched_e (i : Nat) (x : Scratch) : (sched i x).e = x.e := rfl

/-- A round changes A..E, TMP and T (R84), the schedule stays. -/
@[simp] theorem round_w (t : Nat) (x : Scratch) : (round t x).w = x.w := rfl
@[simp] theorem round_wAt (t : Nat) (x : Scratch) (j : Nat) : (round t x).wAt j = x.wAt j := rfl

/-- A round, as one function of the five working registers and one schedule word (R84, R88). -/
theorem round_working (t : Nat) (x : Scratch) :
    (round t x).working =
      ⟨rotl x.a .five + roundF t x.b x.c x.d + x.e + roundK t + x.wAt t, x.a, rotl x.b .thirty, x.c, x.d⟩ := rfl

/-- The eighty rounds leave the schedule as it is. -/
theorem rounds_w (x : Scratch) : (rounds x).w = x.w :=
  foldl_keeps (fun x : Scratch => x.w) (fun x t => round t x) (fun _ _ => rfl) _ x

/-- The words loaded from the buffer (R78): those below 16, and no other. -/
theorem wAt_loadBlock (s : State) (j : Nat) (h : j < 16) : (loadBlock s).wAt j = memRead32 s (4 * j) := by
  have key : ∀ (n : Nat), n ≤ 16 → ∀ j, j < n →
      ((List.range n).foldl (fun x j => x.setW j (memRead32 s (4 * j))) s.scratch).wAt j =
        memRead32 s (4 * j) := by
    intro n
    induction n with
    | zero => intro _ j hj; omega
    | succ n ih =>
      intro hn j hj
      rw [List.range_succ, List.foldl_append, List.foldl_cons, List.foldl_nil, wAt_setW]
      by_cases hjn : j = n
      · subst hjn; rw [if_pos ⟨rfl, by omega⟩]
      · rw [if_neg (fun hc => hjn hc.1)]
        exact ih (by omega) j (by omega)
  exact key 16 (Nat.le_refl _) j h

@[simp] theorem loadw_wAt (s : State) (j : Nat) : (loadw s).wAt j = (loadBlock s).wAt j := rfl

/-- LOADW reads H, the buffer's bytes and the scratch registers, nothing else (R78). -/
theorem loadw_congr {s t : State} (hh : s.h = t.h) (hb : ∀ a, s.byteAt a = t.byteAt a)
    (hx : s.scratch = t.scratch) : loadw s = loadw t := by
  have hm : memRead32 s = memRead32 t := by funext a; simp [memRead32, hb]
  simp only [loadw, loadBlock, hm, hx, hh]

/-- The rounds depend on H, the buffer's bytes and the scratch registers alone. -/
theorem roundsDone_congr {s t : State} (hh : s.h = t.h) (hb : ∀ a, s.byteAt a = t.byteAt a)
    (hx : s.scratch = t.scratch) : roundsDone s = roundsDone t := by
  unfold roundsDone
  rw [loadw_congr hh hb hx]

/-- The first `n` steps of the schedule, from `W[16]` on (R87). -/
def scheduleSteps (n : Nat) (x : Scratch) : Scratch := (List.range' 16 n).foldl (fun x i => sched i x) x

/-- The schedule is its sixty-four steps. -/
theorem schedule_eq_steps (x : Scratch) : schedule x = scheduleSteps 64 x := rfl

/-- One more step of the schedule. -/
theorem scheduleSteps_succ (n : Nat) (x : Scratch) :
    scheduleSteps (n + 1) x = sched (16 + n) (scheduleSteps n x) := by
  rw [scheduleSteps, List.range'_concat, List.foldl_append]
  simp [scheduleSteps]

/-- Steps of the schedule write only the words they are for. -/
theorem wAt_scheduleSteps_other (n : Nat) (x : Scratch) {j : Nat} (h : j < 16 ∨ 16 + n ≤ j) :
    (scheduleSteps n x).wAt j = x.wAt j := by
  induction n with
  | zero => rfl
  | succ n ih => rw [scheduleSteps_succ, wAt_sched, if_neg (by omega), ih (by omega)]

/-- The word of a step depends on the words before it alone (R79, R80). -/
theorem schedWord_congr {x y : Scratch} {i : Nat} (hi : 16 ≤ i) (h : ∀ j, j < i → x.wAt j = y.wAt j) :
    schedWord x i = schedWord y i := by
  unfold schedWord
  rw [h (i - 3) (by omega), h (i - 8) (by omega), h (i - 14) (by omega), h (i - 16) (by omega)]
  split
  · rfl
  · rw [h (i - 6) (by omega), h (i - 28) (by omega), h (i - 32) (by omega)]

/-- A word written by a step stays as that step computed it. -/
theorem wAt_scheduleSteps (n : Nat) (x : Scratch) (hn : n ≤ 64) {i : Nat} (h1 : 16 ≤ i) (h2 : i < 16 + n) :
    (scheduleSteps n x).wAt i = schedWord (scheduleSteps n x) i := by
  induction n with
  | zero => omega
  | succ n ih =>
    have key : schedWord (scheduleSteps (n + 1) x) i = schedWord (scheduleSteps n x) i :=
      schedWord_congr h1 fun j hj => by rw [scheduleSteps_succ, wAt_sched, if_neg (by omega)]
    rw [key, scheduleSteps_succ, wAt_sched]
    by_cases h : i = 16 + n
    · rw [if_pos ⟨h, by omega⟩, h]
    · rw [if_neg (by omega), ih (by omega) (by omega)]

/-- One more round. -/
theorem firstRounds_succ (n : Nat) (x : Scratch) : firstRounds (n + 1) x = round n (firstRounds n x) := by
  rw [firstRounds, List.range_succ, List.foldl_append]
  rfl

/-- Rounds leave the schedule as it is. -/
theorem wAt_firstRounds (n : Nat) (x : Scratch) (j : Nat) : (firstRounds n x).wAt j = x.wAt j := by
  have h : (firstRounds n x).w = x.w :=
    foldl_keeps (fun x : Scratch => x.w) (fun x t => round t x) (fun _ _ => rfl) _ x
  simp [Scratch.wAt, h]

end Sys2Proof.Machine
end

