-- ==== Sys2Proof/Laws/Commands.lean ====
section
/-! SUPPORT. What each command can do, said once: the outcomes of `exec`, command by command and case by
case, so that no later proof unfolds a meaning. -/

namespace Sys2Proof.Machine

/-- RESET has one outcome (R61). -/
theorem exec_reset (s : State) : exec .reset s = .next (endDraw (toInitial s)) := rfl

/-- A PUSH that does not fill the block (R65). -/
theorem exec_push_of_lt {s : State} (d : Byte) (hc : s.consumed = false) (h : s.filled.toNat < 63) :
    exec (.push d) s = .next (bumpFilled (putByte s.filled.toNat d s)) := by
  have hf : bufferFull (s.filled + 1#7) = false := by
    rw [bufferFull, beq_eq_false_iff_ne, ne_eq, ← BitVec.toNat_inj, BitVec.toNat_add]
    simp; omega
  simp [exec, execPush, hc, pushAbsorbing, memWriteByte_of_lt (show s.filled.toNat < 64 by omega), flushIfFull, hf]

/-- A PUSH that fills the block (R65). -/
theorem exec_push_of_full {s : State} (d : Byte) (hc : s.consumed = false) (h : s.filled = 63#7) :
    exec (.push d) s =
      .next (releaseScratch (clearFilled (compress (bumpFilled (putByte 63 d s))))) := by
  simp [exec, execPush, hc, pushAbsorbing, h, memWriteByte_of_lt (show 63 < 64 by decide), flushIfFull, bufferFull]

/-- A PUSH at an index that does not exist (log 11). -/
theorem exec_push_of_ge {s : State} (d : Byte) (hc : s.consumed = false) (h : 64 ≤ s.filled.toNat) :
    exec (.push d) s = .fault (.noBufferByte s.filled.toNat) := by
  simp [exec, execPush, hc, pushAbsorbing, memWriteByte_of_le h]

/-- A PUSH on a consumed state (R141). -/
theorem exec_push_of_consumed {s : State} (d : Byte) (hc : s.consumed = true) :
    exec (.push d) s = .next (endDraw (misuse s)) := by simp [exec, execPush, hc]

/-- MARK (R96). -/
theorem mark_of_lt {s : State} (h : s.filled.toNat < 64) :
    mark s = .ok (bumpFilled (putByte s.filled.toNat terminator s)) := by
  simp [mark, memWriteByte_of_lt h]

/-- A FINISH that is used as R140 allows (R101). -/
theorem exec_finish_of_lt {s : State} (hc : s.consumed = false) (h : s.filled.toNat < 64) :
    exec .finish s = .next (finishEnd (compress (putlen (fillBlock
      (bumpFilled (putByte s.filled.toNat terminator (capture s))))))) := by
  simp only [exec, execFinish, hc, finishAbsorbing, mark_of_lt (s := capture s) h]
  rfl

/-- A FINISH at an index that does not exist (log 11). -/
theorem exec_finish_of_ge {s : State} (hc : s.consumed = false) (h : 64 ≤ s.filled.toNat) :
    exec .finish s = .fault (.noBufferByte s.filled.toNat) := by
  simp [exec, execFinish, hc, finishAbsorbing, mark, memWriteByte_of_le h]

/-- A FINISH on a consumed state (R141). -/
theorem exec_finish_of_consumed {s : State} (hc : s.consumed = true) :
    exec .finish s = .next (endDraw (respond (Config.freeResponse s.draws) (misuse s))) := by
  simp [exec, execFinish, hc]

/-- `FILLED` counted up from less than 64 does not wrap (R12, R65). -/
theorem toNat_filled_succ {f : BitVec 7} (h : f.toNat < 64) : (f + 1#7).toNat = f.toNat + 1 := by
  rw [BitVec.toNat_add]
  simp; omega

/-- The path decision of FINISH, in terms of FILLED before MARK (R97). -/
theorem lengthFits_succ {f : BitVec 7} (h : f.toNat < 64) : lengthFits (f + 1#7) = decide (f.toNat ≤ 55) := by
  rw [lengthFits, BitVec.ule_eq_decide, toNat_filled_succ h]
  simp; omega

/-- A free FILLED is 0 to 63 (R104, R141). -/
theorem toNat_freeFilled (n : Nat) : ((Config.freeFilled n).setWidth 7).toNat < 64 := by
  have := (Config.freeFilled n).isLt
  rw [BitVec.toNat_setWidth]
  omega

/-- A free index T is 0 to 79 (R17). -/
theorem toNat_free_t (n : Nat) : (Scratch.free n).t.toNat < 80 := by
  have := (Config.freeIndex n).isLt
  simp only [Scratch.free, BitVec.toNat_ofNat]
  omega

/-- No command touches the ports, the latencies or what the host has driven and taken (R27). -/
theorem exec_sameHostSide {i : Instr} {s t : State} (h : exec i s = .next t) : s.SameHostSide t := by
  cases i with
  | reset => cases h; constructor <;> simp
  | push d =>
    cases hc : s.consumed with
    | true => rw [exec_push_of_consumed d hc] at h; cases h; constructor <;> simp
    | false =>
      rcases Nat.lt_trichotomy s.filled.toNat 63 with hf | hf | hf
      · rw [exec_push_of_lt d hc hf] at h; cases h; constructor <;> simp
      · rw [exec_push_of_full d hc (by bv_omega)] at h; cases h; constructor <;> simp
      · rw [exec_push_of_ge d hc hf] at h; cases h
  | finish =>
    cases hc : s.consumed with
    | true => rw [exec_finish_of_consumed hc] at h; cases h; constructor <;> simp
    | false =>
      rcases Nat.lt_or_ge s.filled.toNat 64 with hf | hf
      · rw [exec_finish_of_lt hc hf] at h; cases h; constructor <;> simp
      · rw [exec_finish_of_ge hc hf] at h; cases h

/-- The same state with other edges still to be driven. -/
def withDrive (d : List PortIn) (s : State) : State := { s with drive := d }

/-- COMPRESS does not look at the edges still to be driven. -/
theorem compress_withDrive (d : List PortIn) (s : State) :
    compress (withDrive d s) = withDrive d (compress s) := by
  rw [compress, compress, roundsDone_congr (s := withDrive d s) (t := s) rfl (fun _ => rfl) rfl]
  rfl

/-- Filling the block does not look at the edges still to be driven. -/
theorem fillBlock_withDrive (d : List PortIn) (s : State) :
    fillBlock (withDrive d s) = withDrive d (fillBlock s) := by
  rw [fillBlock, fillBlock]
  by_cases h : lengthFits s.filled = true
  · rw [if_pos h, if_pos (by exact h)]
    rfl
  · rw [if_neg h, if_neg (by exact h), spill, spill,
      show zeroFill (withDrive d s).filled.toNat 64 (withDrive d s) =
        withDrive d (zeroFill s.filled.toNat 64 s) from rfl, compress_withDrive]
    generalize compress _ = g
    apply State.ext <;> simp [withDrive]

/-- No command looks at the edges still to be driven. -/
theorem exec_withDrive {i : Instr} {s t : State} (d : List PortIn) (h : exec i s = .next t) :
    exec i (withDrive d s) = .next (withDrive d t) := by
  cases i with
  | reset => cases h; rfl
  | push x =>
    cases hc : s.consumed with
    | true =>
      rw [exec_push_of_consumed x hc] at h; cases h
      rw [exec_push_of_consumed x (by exact hc)]
      rfl
    | false =>
      rcases Nat.lt_trichotomy s.filled.toNat 63 with hf | hf | hf
      · rw [exec_push_of_lt x hc hf] at h; cases h
        rw [exec_push_of_lt (s := withDrive d s) x hc hf]
        rfl
      · have h63 : s.filled = 63#7 := by bv_omega
        rw [exec_push_of_full x hc h63] at h; cases h
        rw [exec_push_of_full (s := withDrive d s) x hc h63,
          show bumpFilled (putByte 63 x (withDrive d s)) = withDrive d (bumpFilled (putByte 63 x s)) from rfl,
          compress_withDrive]
        rfl
      · rw [exec_push_of_ge x hc hf] at h; cases h
  | finish =>
    cases hc : s.consumed with
    | true =>
      rw [exec_finish_of_consumed hc] at h; cases h
      rw [exec_finish_of_consumed (by exact hc)]
      rfl
    | false =>
      rcases Nat.lt_or_ge s.filled.toNat 64 with hf | hf
      · rw [exec_finish_of_lt hc hf] at h; cases h
        rw [exec_finish_of_lt (s := withDrive d s) hc hf,
          show bumpFilled (putByte (withDrive d s).filled.toNat terminator (capture (withDrive d s))) =
            withDrive d (bumpFilled (putByte s.filled.toNat terminator (capture s))) from rfl,
          fillBlock_withDrive]
        generalize fillBlock _ = g
        rw [show putlen (withDrive d g) = withDrive d (putlen g) from rfl, compress_withDrive]
        rfl
      · rw [exec_finish_of_ge hc hf] at h; cases h

/-- A run of operations one after the other (R41). -/
theorem runOps_append (p q : List HostOp) (s : State) :
    runOps (p ++ q) s = match runOps p s with
      | .next t => runOps q t
      | .fault f => .fault f
      | .refused r => .refused r := by
  induction p generalizing s with
  | nil => rfl
  | cons op p ih =>
    simp only [List.cons_append, runOps]
    cases runOp op s with
    | next t => exact ih t
    | fault f => rfl
    | refused r => rfl

end Sys2Proof.Machine
end

