-- ==== Sys2Proof/Laws/PerInstr.lean ====
section
/-! SUPPORT. Statements made for every command, one lemma per constructor. -/

namespace Sys2Proof.Laws.Legal

/-- The command is well formed, and its word is one that the host may issue (R46 to R48). -/
def Statement (i : Instr) : Prop := i.wellFormed = true ∧ CmdWord.legal (encode i) = true

theorem reset : Statement .reset := ⟨rfl, by decide⟩

theorem push (d : Byte) : Statement (.push d) := by
  refine ⟨rfl, ?_⟩
  revert d
  decide +kernel

theorem finish : Statement .finish := ⟨rfl, by decide⟩

end Sys2Proof.Laws.Legal
end

