-- ==== Sys2Proof/Laws/Ports.lean ====
section
/-! SUPPORT. What one edge can be, said once, and runs of several edges one at a time. -/

namespace Sys2Proof.Machine

/-- An edge without `rst` at which the host keeps its promise is what the core's readiness makes of it. -/
theorem portEvent_kept {e : PortIn} {s : State} (h : e.rst = false)
    (hh : s.held = none ∨ s.held = e.presented) : portEvent e s = readyEvent e s := by
  unfold portEvent
  rcases hh with hh | hh
  · simp [h, hh]
  · cases hp : e.presented <;> simp [h, hh, hp]

/-- An edge with `rst` is a hardware reset. -/
theorem edge_of_rst {e : PortIn} {s : State} (h : e.rst = true) : edge e s = .next (hardwareReset s) := by
  simp [edge, portEvent, h]

/-- An edge of a command in progress. -/
theorem edge_of_busy {e : PortIn} {s : State} (h : e.rst = false)
    (hh : s.held = none ∨ s.held = e.presented) (hb : s.busy ≠ 0) :
    edge e s = .next (keepPresented e (passBusyEdge s)) := by
  rw [edge, portEvent_kept h hh, readyEvent, if_pos hb]

/-- An edge at which a response is pending. -/
theorem edge_of_response {e : PortIn} {s : State} {x : Digest} (h : e.rst = false)
    (hh : s.held = none ∨ s.held = e.presented) (hb : s.busy = 0) (hx : s.rsp = some x) :
    edge e s = .next (keepPresented e (if e.rspReady then takeResponse x s else s)) := by
  rw [edge, portEvent_kept h hh, readyEvent, if_neg (by simp [hb]), hx]
  cases e.rspReady <;> rfl

/-- An edge at which a ready core is presented nothing. -/
theorem edge_of_idle {e : PortIn} {s : State} (h : e.rst = false)
    (hh : s.held = none ∨ s.held = e.presented) (hb : s.busy = 0) (hx : s.rsp = none)
    (hp : e.presented = none) : edge e s = .next (keepPresented e s) := by
  rw [edge, portEvent_kept h hh, readyEvent, if_neg (by simp [hb]), hx, hp]

/-- An edge at which a ready core is presented a command word. -/
theorem edge_of_command {e : PortIn} {s : State} {w : CmdWord} (h : e.rst = false)
    (hh : s.held = none ∨ s.held = some w) (hb : s.busy = 0) (hx : s.rsp = none)
    (hp : e.presented = some w) : edge e s = acceptCommand w s := by
  rw [edge, portEvent_kept h (by rw [hp]; exact hh), readyEvent, if_neg (by simp [hb]), hx, hp]

/-- Accepting the word of a command. -/
theorem acceptCommand_of_decode {w : CmdWord} {i : Instr} (hd : decode w = .ok i) (s : State) :
    acceptCommand w s = match exec i (releaseHeld s) with
      | .next t => .next (occupy (occupancy i s) t)
      | .fault f => .fault f
      | .refused r => .refused r := by
  cases hx : exec i (releaseHeld s) <;> simp [acceptCommand, hd, hx]

/-- For a FILLED that has an entry, `T_FINISH(p)` beyond the compressions is that entry (R150). -/
theorem finishBeyond_of_lt (l : Latency) {p : Nat} (h : p < 64) : l.finishBeyond p = l.extraFinish[p] := by
  simp [Latency.finishBeyond, h]

/-- The word that `withFetchWord` places is the one the next step accepts (log 13). -/
theorem step_withFetchWord (s : State) (nbits : Nat) {w : Nat} (h : w < 1024) :
    step (s.withFetchWord nbits w) =
      acceptCommand (BitVec.ofNat 10 w) (dropEdge (s.withFetchWord nbits w)) := by
  rw [step, State.withFetchWord, if_pos h]
  exact edge_of_command (s := dropEdge _) rfl (.inl rfl) rfl rfl rfl

/-- Everything an edge can do when it answers a next state. -/
theorem edge_next_cases {e : PortIn} {s t : State} (h : edge e s = .next t) :
    (e.rst = true ∧ t = hardwareReset s) ∨
    (e.rst = false ∧ s.busy ≠ 0 ∧ t = keepPresented e (passBusyEdge s)) ∨
    (e.rst = false ∧ s.busy = 0 ∧ (∃ x, s.rsp = some x ∧ e.rspReady = true ∧
      t = keepPresented e (takeResponse x s))) ∨
    (e.rst = false ∧ s.busy = 0 ∧ (∃ x, s.rsp = some x ∧ e.rspReady = false) ∧ t = keepPresented e s) ∨
    (e.rst = false ∧ s.busy = 0 ∧ s.rsp = none ∧ e.presented = none ∧ t = keepPresented e s) ∨
    (e.rst = false ∧ s.busy = 0 ∧ s.rsp = none ∧ ∃ w i u, e.presented = some w ∧ decode w = .ok i ∧
      exec i (releaseHeld s) = .next u ∧ t = occupy (occupancy i s) u) := by
  cases hr : e.rst with
  | true => simp [edge, portEvent, hr] at h; exact .inl ⟨rfl, h.symm⟩
  | false =>
    right
    have hk : portEvent e s = readyEvent e s ∨ ∃ w, portEvent e s = .unstable w := by
      unfold portEvent
      cases s.held with
      | none => simp [hr]
      | some w => by_cases hw : e.presented = some w <;> simp [hr, hw]
    rcases hk with hk | ⟨w, hk⟩
    · by_cases hb : s.busy = 0
      · cases hx : s.rsp with
        | some x =>
          cases hy : e.rspReady <;> simp [edge, hk, readyEvent, hb, hx, hy] at h <;>
            simp [hb, h.symm]
        | none =>
          cases hp : e.presented with
          | none => simp [edge, hk, readyEvent, hb, hx, hp] at h; simp [hb, h.symm]
          | some w =>
            simp only [edge, hk, readyEvent, hb, hx, hp, ne_eq, not_true_eq_false, if_false,
              acceptCommand] at h
            cases hd : decode w with
            | error r => simp [hd] at h
            | ok i =>
              cases hu : exec i (releaseHeld s) with
              | next u =>
                simp [hd, hu] at h
                exact .inr (.inr (.inr (.inr ⟨rfl, hb, rfl, w, i, u, rfl, hd, hu, h.symm⟩)))
              | fault f => simp [hd, hu] at h
              | refused r => simp [hd, hu] at h
      · simp [edge, hk, readyEvent, hb] at h
        exact .inl ⟨rfl, hb, h.symm⟩
    · simp [edge, hk] at h

/-- A fault of an edge is a fault of the command accepted there. -/
theorem edge_fault_cases {e : PortIn} {s : State} {f : Fault} (h : edge e s = .fault f) :
    ∃ i, exec i (releaseHeld s) = .fault f := by
  unfold edge at h
  split at h <;> try simp at h
  unfold acceptCommand at h
  split at h
  · simp at h
  · next i _ =>
    split at h
    · simp at h
    · next g hg => exact ⟨i, by simpa [hg] using h⟩
    · simp at h

/-- A run of one more step, on any machine. -/
theorem coreRun_of_step (M : Host.Core) {n : Nat} {s t : M.State} (h : M.step s = .next t) :
    M.run (n + 1) s = M.run n t := by
  rw [Host.Core.run, h]

/-- A run that answers a next state takes a first step that does. -/
theorem coreRun_succ_next (M : Host.Core) {n : Nat} {s t : M.State} (h : M.run (n + 1) s = .next t) :
    ∃ u, M.step s = .next u ∧ M.run n u = .next t := by
  rw [Host.Core.run] at h
  split at h
  · next u hu => exact ⟨u, hu, h⟩
  · cases h
  · cases h

/-- A run of several steps and then several more, on any machine. -/
theorem coreRun_add (M : Host.Core) {m n : Nat} {s t : M.State} (h : M.run m s = .next t) :
    M.run (m + n) s = M.run n t := by
  induction m generalizing s with
  | zero => rw [Host.Core.run] at h; cases h; rw [Nat.zero_add]
  | succ m ih =>
    obtain ⟨u, hu, hr⟩ := coreRun_succ_next M h
    rw [Nat.succ_add, coreRun_of_step M hu, ih hr]

/-- A run of one more edge. -/
theorem run_of_step {n : Nat} {s t : State} (h : step s = .next t) :
    Host.Core.run Sys2Proof.core (n + 1) s = Host.Core.run Sys2Proof.core n t :=
  coreRun_of_step Sys2Proof.core h

/-- A run of no edges. -/
@[simp] theorem run_zero (s : State) : Host.Core.run Sys2Proof.core 0 s = .next s := rfl

/-- A run of several edges and then several more. -/
theorem run_add {m n : Nat} {s t : State} (h : Host.Core.run Sys2Proof.core m s = .next t) :
    Host.Core.run Sys2Proof.core (m + n) s = Host.Core.run Sys2Proof.core n t :=
  coreRun_add Sys2Proof.core h

end Sys2Proof.Machine
end

