-- ==== Sys2Proof/Laws/Reference.lean ====
section
/-! SUPPORT. The small lemmas of the pure SHA-1 functions: what a schedule word is, on what a block
transformation depends, and the bytes of a padded message. -/

namespace Sys2Proof.Machine

@[simp] theorem scheduleRev_length (m : Block) (n : Nat) : (scheduleRev m n).length = n := by
  induction n with
  | zero => rfl
  | succ n ih => simp [scheduleRev, ih]

/-- The words computed so far, newest first. -/
theorem scheduleRev_getD (m : Block) {n k : Nat} (h : k < n) :
    (scheduleRev m n).getD k 0#32 = scheduleWord m (n - 1 - k) := by
  induction n generalizing k with
  | zero => omega
  | succ n ih =>
    cases k with
    | zero => simp [scheduleWord, scheduleRev]
    | succ k =>
      rw [scheduleRev, List.getD_cons_succ, ih (by omega)]
      congr 1
      omega

/-- The first sixteen words are the block's (R78, R88). -/
theorem scheduleWord_of_lt (m : Block) {t : Nat} (h : t < 16) : scheduleWord m t = Block.word m t := by
  simp [scheduleWord, scheduleRev, h]

/-- The canonical recurrence (R79, R80). -/
theorem scheduleWord_of_ge (m : Block) {t : Nat} (h : 16 ≤ t) :
    scheduleWord m t = rotl (scheduleWord m (t - 3) ^^^ scheduleWord m (t - 8) ^^^
      scheduleWord m (t - 14) ^^^ scheduleWord m (t - 16)) .one := by
  conv_lhs => rw [scheduleWord, scheduleRev]
  simp only [List.headD_cons, Nat.not_lt.mpr h, if_false]
  rw [scheduleRev_getD m (by omega), scheduleRev_getD m (by omega), scheduleRev_getD m (by omega),
    scheduleRev_getD m (by omega)]
  rfl

/-- The schedule depends on the sixty-four bytes of the block alone. -/
theorem scheduleRev_congr {m m' : Block} (h : ∀ i, i < 64 → m i = m' i) (n : Nat) :
    scheduleRev m n = scheduleRev m' n := by
  induction n with
  | zero => rfl
  | succ n ih =>
    simp only [scheduleRev, ih]
    by_cases h16 : n < 16
    · simp [h16, Block.word, h (4 * n) (by omega), h (4 * n + 1) (by omega), h (4 * n + 2) (by omega),
        h (4 * n + 3) (by omega)]
    · simp [h16]

/-- The block transformation depends on the sixty-four bytes of the block alone (R75, R88). -/
theorem compressHash_congr {h : Hash} {m m' : Block} (hm : ∀ i, i < 64 → m i = m' i) :
    compressHash h m = compressHash h m' := by
  have hr : ∀ n, roundsFrom m h n = roundsFrom m' h n := by
    intro n
    induction n with
    | zero => rfl
    | succ n ih => rw [roundsFrom, ih, scheduleWord, scheduleRev_congr hm, roundsFrom, scheduleWord]
  rw [compressHash, hr, compressHash]

/-- Whole blocks at the start of a longer string are compressed as they are. -/
theorem chain_append (a b : List Byte) (h : Hash) {n : Nat} (hn : 64 * n ≤ a.length) :
    chain (a ++ b) h n = chain a h n := by
  induction n with
  | zero => rfl
  | succ n ih =>
    rw [chain, chain, ih (by omega)]
    refine compressHash_congr fun i hi => ?_
    simp only [blockOf]
    rw [List.getD_append _ _ _ _ (by omega)]

end Sys2Proof.Machine
end

