-- ==== Sys2Proof/Tests/Slice0.lean ====
section
/-! SUPPORT. Small tests, their expected values taken from spec/95_test_vectors.md (the section is named with
each) or written out from the encoding rules; and for every statement with hypotheses a concrete state and
operands that meet them. -/

namespace Sys2Proof.Tests
open Sys2Proof Sys2Proof.Machine

/-! ### States the tests start from -/

/-- Fresh, with `FILLED` set. -/
def atFill (f : BitVec 7) : State := { State.reset with filled := f }

/-- `f` bytes of 0x61 pushed on a fresh state. -/
def pushed61 (f : Nat) : State :=
  { State.reset with
    filled := BitVec.ofNat 7 f
    buf := Memory.writeBytes [] 0 (List.replicate f 0x61#8) }

/-- The bytes `abc` pushed on a fresh state. -/
def pushedAbc : State :=
  { State.reset with filled := 3#7, buf := [(0, 0x61#8), (1, 0x62#8), (2, 0x63#8)] }

/-- A consumed state. -/
def used : State := { State.reset with consumed := true, filled := 5#7, nblk := 1#64, buf := [(0, 0x61#8)] }

/-- That consumed state, the host driving the given edges. -/
def usedDriven (d : List PortIn) : State := { used with drive := d }

/-- Fresh, the host driving the given edges. -/
def driven (d : List PortIn) : State := { State.reset with drive := d }

/-- A response waiting. -/
def waiting (d : List PortIn) : State := { State.reset with consumed := true, rsp := some 7#160, drive := d }

/-- A command in progress for two more edges. -/
def busyTwo (d : List PortIn) : State := { State.reset with busy := 2, drive := d }

/-- `H1`: H after 64 bytes of 0x61 (95, section 5). -/
def h1 : Hash := ⟨0xDA4968EB#32, 0x2E377C1F#32, 0x884E8F52#32, 0x83524BEB#32, 0xE74EBDBD#32⟩

/-- What a command leaves of an outcome that is a next state. -/
def after {α : Type} (o : Host.Outcome State Fault Refusal) (f : State → α) : Option α :=
  match o with
  | .next s => some (f s)
  | .fault _ => none
  | .refused _ => none

/-! ### Which words are legal (95, section 7.5): each check refuses its ill-formed words -/

theorem test_legal_refuses_op_three :
    CmdWord.reservedOp 0x300#10 = true ∧ CmdWord.reservedOp 0x3FF#10 = true ∧
    CmdWord.legal 0x300#10 = false ∧ CmdWord.legal 0x3FF#10 = false := by decide

theorem test_legal_refuses_reset_with_data :
    CmdWord.resetWithData 0x001#10 = true ∧ CmdWord.resetWithData 0x0FF#10 = true ∧
    CmdWord.legal 0x001#10 = false ∧ CmdWord.legal 0x0FF#10 = false := by decide

theorem test_legal_refuses_finish_with_data :
    CmdWord.finishWithData 0x201#10 = true ∧ CmdWord.finishWithData 0x2FF#10 = true ∧
    CmdWord.legal 0x201#10 = false ∧ CmdWord.legal 0x2FF#10 = false := by decide

theorem test_legal_words :
    CmdWord.legal 0x000#10 = true ∧ CmdWord.legal 0x100#10 = true ∧ CmdWord.legal 0x1FF#10 = true ∧
    CmdWord.legal 0x200#10 = true := by decide

theorem test_every_command_well_formed :
    Instr.wellFormed .reset = true ∧ Instr.wellFormed (.push 0xFF#8) = true ∧
    Instr.wellFormed .finish = true := by decide

/-! ### Decoding, from words written out bit by bit (R45, R46) -/

theorem test_decode_reset : decode 0b0000000000#10 = .ok .reset := by decide
theorem test_decode_push_bit7 : decode 0b0110000000#10 = .ok (.push 0x80#8) := by decide
theorem test_decode_push_mixed : decode 0b0101010110#10 = .ok (.push 0x56#8) := by decide
theorem test_decode_finish : decode 0b1000000000#10 = .ok .finish := by decide

theorem test_decode_reserved :
    decode 0b1100000000#10 = .error .opThree ∧ decode 0b1111111111#10 = .error .opThree ∧
    decode 0b0000000001#10 = .error .resetData ∧ decode 0b0011111111#10 = .error .resetData ∧
    decode 0b1000000001#10 = .error .finishData ∧ decode 0b1011111111#10 = .error .finishData := by decide

theorem test_decodeTableWord :
    decodeTableWord 16 0x000 = some .reset ∧ decodeTableWord 16 0x161 = some (.push 0x61#8) ∧
    decodeTableWord 16 0x200 = some .finish ∧ decodeTableWord 16 0x300 = none ∧
    decodeTableWord 16 0x500 = none := by decide

/-- The encodings of R55. -/
theorem test_encode :
    encode .reset = 0x000#10 ∧ encode (.push 0x61#8) = 0x161#10 ∧ encode .finish = 0x200#10 := by decide

/-! ### The datapath -/

/-- 95, section 3.1. -/
theorem test_rotl32 :
    rotl32 0x80000000#32 1 = 1#32 ∧ rotl32 1#32 31 = 0x80000000#32 ∧
    rotl32 0x12345678#32 5 = 0x468ACF02#32 ∧ rotl32 0x12345678#32 30 = 0x048D159E#32 := by decide

/-- 95, section 3.2. -/
theorem test_add32 :
    add32 0xEFCDAB89#32 0x5738D5E1#32 = 0x4706816A#32 ∧ add32 0xFFFFFFFF#32 1#32 = 0#32 := by decide

/-- 95, section 3.3: the truth tables of the four groups, at the first and the last round of each. -/
theorem test_roundF :
    roundF 0 0xF0F0F0F0#32 0xCCCCCCCC#32 0xAAAAAAAA#32 = 0xCACACACA#32 ∧
    roundF 19 0xF0F0F0F0#32 0xCCCCCCCC#32 0xAAAAAAAA#32 = 0xCACACACA#32 ∧
    roundF 20 0xF0F0F0F0#32 0xCCCCCCCC#32 0xAAAAAAAA#32 = 0x96969696#32 ∧
    roundF 39 0xF0F0F0F0#32 0xCCCCCCCC#32 0xAAAAAAAA#32 = 0x96969696#32 ∧
    roundF 40 0xF0F0F0F0#32 0xCCCCCCCC#32 0xAAAAAAAA#32 = 0xE8E8E8E8#32 ∧
    roundF 59 0xF0F0F0F0#32 0xCCCCCCCC#32 0xAAAAAAAA#32 = 0xE8E8E8E8#32 ∧
    roundF 60 0xF0F0F0F0#32 0xCCCCCCCC#32 0xAAAAAAAA#32 = 0x96969696#32 ∧
    roundF 79 0xF0F0F0F0#32 0xCCCCCCCC#32 0xAAAAAAAA#32 = 0x96969696#32 := by decide

/-- 95, section 3.4. -/
theorem test_memRead_big_endian :
    memRead32 { State.reset with buf := [(0, 0x61#8), (1, 0x62#8), (2, 0x63#8), (3, 0x80#8)] } 0 =
      0x61626380#32 := by decide

/-- 95, section 3.4. -/
theorem test_putlen_big_endian :
    (putlen { State.reset with lenreg := 0x0123456789ABCDEF#64 }).buf =
      [(56, 0x01#8), (57, 0x23#8), (58, 0x45#8), (59, 0x67#8), (60, 0x89#8), (61, 0xAB#8), (62, 0xCD#8),
        (63, 0xEF#8)] := by decide

/-- 95, section 3.5. -/
theorem test_bitLength :
    bitLength 0#64 3#7 = 0x18#64 ∧ bitLength 1#64 56#7 = 0x3C0#64 ∧ bitLength 15625#64 0#7 = 0x7A1200#64 ∧
    bitLength 0x7FFFFFFFFFFFFF#64 63#7 = 0xFFFFFFFFFFFFFFF8#64 ∧
    bitLength 0x80000000000000#64 0#7 = 0#64 := by decide

/-- The block of 95, section 4, in the buffer. -/
def abcBlock : State :=
  { State.reset with
    buf := Memory.writeBytes [] 0
      ([0x61#8, 0x62#8, 0x63#8, 0x80#8] ++ List.replicate 59 0#8 ++ [0x18#8]) }

/-- 95, section 4: schedule words of both forms. -/
theorem test_schedule :
    (schedule (loadw abcBlock)).wAt 16 = 0xC2C4C700#32 ∧ (schedule (loadw abcBlock)).wAt 32 = 0x8E9A9202#32 ∧
    (schedule (loadw abcBlock)).wAt 79 = 0x822E0879#32 := by decide +kernel

/-- 95, section 4: the first round. -/
theorem test_round_zero :
    (round 0 (loadw abcBlock)).a = 0x0116FC33#32 ∧ (round 0 (loadw abcBlock)).b = 0x67452301#32 ∧
    (round 0 (loadw abcBlock)).c = 0x7BF36AE2#32 ∧ (round 0 (loadw abcBlock)).d = 0x98BADCFE#32 ∧
    (round 0 (loadw abcBlock)).e = 0x10325476#32 := by decide +kernel

/-- The canonical serialisation (R35) of the digest of `abc` (95, section 2). -/
theorem test_digestBytes :
    digestBytes 0xA9993E364706816ABA3E25717850C26C9CD0D89D#160 =
      [0xA9#8, 0x99#8, 0x3E#8, 0x36#8, 0x47#8, 0x06#8, 0x81#8, 0x6A#8, 0xBA#8, 0x3E#8, 0x25#8, 0x71#8, 0x78#8,
        0x50#8, 0xC2#8, 0x6C#8, 0x9C#8, 0xD0#8, 0xD8#8, 0x9D#8] := by decide

/-! ### One command -/

/-- 95, section 7.1: RESET keeps the stale byte. -/
theorem test_reset :
    after (exec .reset used) (fun t => (t.h, t.filled, t.nblk, t.consumed, t.byteAt 0)) =
      some (iv, 0#7, 0#64, false, 0x61#8) := by decide

/-- 95, section 7.2: a PUSH that stores. -/
theorem test_push_stores :
    after (exec (.push 0x61#8) (pushed61 62)) (fun t => (t.h, t.filled, t.nblk, t.byteAt 62)) =
      some (iv, 63#7, 0#64, 0x61#8) := by decide +kernel

/-- 95, section 7.2: a PUSH that compresses, on a state whose H is not IV. -/
theorem test_push_compresses_chained :
    after (exec (.push 0x61#8) { pushed61 63 with h := h1, nblk := 1#64 }) (fun t => (t.h, t.filled, t.nblk)) =
      some (⟨0x0BA02949#32, 0xDE712838#32, 0x689E76E5#32, 0x885BF881#32, 0x17BA3444#32⟩, 0#7, 2#64) := by
  decide +kernel

/-- 95, section 4: FINISH by one block. -/
theorem test_finish_one_block :
    after (exec .finish pushedAbc) (fun t => (t.rsp, t.nblk, t.consumed, t.lenreg, t.byteAt 3)) =
      some (some 0xA9993E364706816ABA3E25717850C26C9CD0D89D#160, 1#64, true, 0x18#64, 0x80#8) := by
  decide +kernel

/-- 95, section 5, row 63: FINISH by two blocks. -/
theorem test_finish_two_blocks :
    after (exec .finish (pushed61 63)) (fun t => (t.rsp, t.nblk, t.lenreg)) =
      some (some 0x03F09F5B158A7A8CDAD920BDDC29B81C18A551F5#160, 2#64, 0x1F8#64) := by decide +kernel

/-! ### One edge -/

/-- A step accepts the presented word and runs its command (R51). -/
theorem test_step_runs_push :
    after (step (driven [commandEdge 0x161#10])) (fun t => (t.filled, t.byteAt 0, t.drive)) =
      some (1#7, 0x61#8, []) := by decide

/-- The word that `withFetchWord` places is the next step's command. -/
theorem test_step_withFetchWord :
    after (step (State.reset.withFetchWord 16 0x1FF)) (fun t => (t.filled, t.byteAt 0)) =
      some (1#7, 0xFF#8) := by decide

/-- `T_FINISH(p)` may differ from one FILLED to the next (70, R150): with `T_COMPRESS` 10 and `p` beyond the
compressions, it is in progress for one edge less than `10 * blocks + p`, and the response takes the last. -/
theorem test_finish_latency_depends_on_filled :
    let l : Latency := ⟨0, 0, 9, Vector.ofFn fun p => p.val, 0, 0⟩
    occupancy .finish { atFill 0#7 with latency := l } = 9 ∧
    occupancy .finish { atFill 55#7 with latency := l } = 64 ∧
    occupancy .finish { atFill 56#7 with latency := l } = 75 ∧
    occupancy .finish { atFill 63#7 with latency := l } = 82 := by decide +kernel

/-- A reserved word is refused (R48). -/
theorem test_step_refuses_reserved :
    step (State.reset.withFetchWord 16 0x0FF) = .refused (.reservedWord 0x0FF#10) := by rfl

/-! ### The assembler (95, section 7.3) -/

theorem test_assemble_push :
    parseLine "PUSH 0x61 ; a comment".toList = some [.cmd (.push 0x61#8)] ∧
    parseLine "PUSH 97".toList = some [.cmd (.push 0x61#8)] ∧
    parseLine "PUSH 'a'".toList = some [.cmd (.push 0x61#8)] ∧
    parseLine "PUSH 256".toList = none := by decide +kernel

/-- Without blanks (log 20): after a quoted character another byte may follow; a quote inside a word is no quote. -/
theorem test_assemble_without_blanks :
    parseLine "UPDATE 'a''b'".toList = some [.cmd (.push 0x61#8), .cmd (.push 0x62#8)] ∧
    parseLine "UPDATE 'a'0x62".toList = some [.cmd (.push 0x61#8), .cmd (.push 0x62#8)] ∧
    parseLine "UPDATE 0x62'a'".toList = none := by decide +kernel

theorem test_assemble_pseudo :
    parseLine ("DIGEST ".toList ++ [quoteMark, 'a', 'b', quoteMark]) =
      some [.cmd .reset, .cmd (.push 0x61#8), .cmd (.push 0x62#8), .cmd .finish] ∧
    parseLine "UPDATE 0x61 98".toList = some [.cmd (.push 0x61#8), .cmd (.push 0x62#8)] ∧
    parseLine "FLUSH".toList = some [] ∧ parseLine "NEW".toList = some [.new] := by decide +kernel

/-! ### The hypotheses of the statements can be met -/

/-- Ready, and presented the given word. -/
def Presented (w : CmdWord) (s : State) : Prop :=
  s.busy = 0 ∧ s.rsp = none ∧ (s.held = none ∨ s.held = some w) ∧
    s.nextEdge.rst = false ∧ s.nextEdge.cmdValid = true ∧ s.nextEdge.cmdWord = w

/-- Both ways the host can stand: the word new, or held since an earlier edge. -/
theorem presented_new (w : CmdWord) : Presented w (driven [commandEdge w]) := by
  refine ⟨rfl, rfl, .inl rfl, rfl, rfl, rfl⟩

theorem presented_held (w : CmdWord) : Presented w { driven [commandEdge w] with held := some w } := by
  refine ⟨rfl, rfl, .inr rfl, rfl, rfl, rfl⟩

/-- Words in each mask-and-match class of R46, and in none, at the ends of the ranges. -/
theorem witness_WordsSelectCommandsByMaskAndMatch :
    0x100#10 &&& 0x300#10 = 0x100#10 ∧ 0x1FF#10 &&& 0x300#10 = 0x100#10 ∧ 0x200#10 &&& 0x3FF#10 = 0x200#10 ∧
    0x000#10 &&& 0x3FF#10 = 0x000#10 := by decide

theorem witness_ReservedWordsRefused_op_three :
    (0x300 ≤ (0x300#10).toNat ∧ 0x300 ≤ (0x3FF#10).toNat) ∧ Presented 0x300#10 (driven [commandEdge 0x300#10]) ∧
    Presented 0x3FF#10 (driven [commandEdge 0x3FF#10]) :=
  ⟨by decide, presented_new _, presented_new _⟩

theorem witness_ReservedWordsRefused_reset_data :
    (0x001 ≤ (0x001#10).toNat ∧ (0x0FF#10).toNat ≤ 0x0FF) ∧ Presented 0x001#10 (driven [commandEdge 0x001#10]) ∧
    Presented 0x0FF#10 (driven [commandEdge 0x0FF#10]) :=
  ⟨by decide, presented_new _, presented_new _⟩

theorem witness_ReservedWordsRefused_finish_data :
    (0x201 ≤ (0x201#10).toNat ∧ (0x2FF#10).toNat ≤ 0x2FF) ∧ Presented 0x201#10 (driven [commandEdge 0x201#10]) ∧
    Presented 0x2FF#10 { driven [commandEdge 0x2FF#10] with held := some 0x2FF#10 } :=
  ⟨by decide, presented_new _, presented_held _⟩

theorem witness_StepRunsDecodedCommand :
    Presented 0x161#10 (driven [commandEdge 0x161#10]) ∧ decode 0x161#10 = .ok (.push 0x61#8) :=
  ⟨presented_new _, by decide⟩

theorem witness_HardwareResetStep : (busyTwo [resetEdge]).nextEdge.rst = true := by decide

theorem witness_OutputPortsFollowState :
    (driven []).busy = 0 ∧ (driven []).rsp = none ∧ (waiting []).busy = 0 ∧ (waiting []).rsp = some 7#160 := by
  decide

/-- Two busy edges, and none. -/
theorem witness_PresentedCommandWaits :
    (busyTwo [commandEdge 0x161#10, commandEdge 0x161#10]).drive =
      [commandEdge 0x161#10, commandEdge 0x161#10] ++ [] ∧
    [commandEdge 0x161#10, commandEdge 0x161#10].length = (busyTwo []).busy ∧
    (∀ e ∈ [commandEdge 0x161#10, commandEdge 0x161#10],
      e.rst = false ∧ e.cmdValid = true ∧ e.cmdWord = 0x161#10) ∧
    (busyTwo []).held = none ∧ (driven []).drive = ([] : List PortIn) ++ [] ∧
    ([] : List PortIn).length = (driven []).busy := by decide

theorem witness_ResponseHeldUntilTaken :
    (waiting [idleEdge]).busy = 0 ∧ (waiting [idleEdge]).rsp = some 7#160 ∧ (waiting [idleEdge]).held = none ∧
    (waiting [idleEdge]).nextEdge.rst = false ∧ (waiting [idleEdge]).nextEdge.rspReady = false ∧
    (waiting [takeEdge]).nextEdge.rst = false ∧ (waiting [takeEdge]).nextEdge.rspReady = true := by decide

theorem witness_IdleCoreKeepsState :
    (driven [idleEdge]).busy = 0 ∧ (driven [idleEdge]).rsp = none ∧ (driven [idleEdge]).held = none ∧
    (driven [idleEdge]).nextEdge.rst = false ∧ (driven [idleEdge]).nextEdge.cmdValid = false := by decide

/-- A word withdrawn, and a word changed. -/
theorem witness_UnstableCommandRefused :
    { driven [idleEdge] with held := some 0x161#10 }.held = some 0x161#10 ∧
    (driven [idleEdge]).nextEdge.rst = false ∧ (driven [idleEdge]).nextEdge.cmdValid = false ∧
    (driven [commandEdge 0x162#10]).nextEdge.rst = false ∧
    (driven [commandEdge 0x162#10]).nextEdge.cmdWord ≠ 0x161#10 := by decide

theorem witness_CoreBecomesReady :
    (waiting (List.replicate 1 takeEdge ++ [])).held = none ∧
    1 = (waiting (List.replicate 1 takeEdge ++ [])).busy +
      (if (waiting (List.replicate 1 takeEdge ++ [])).rsp.isSome then 1 else 0) ∧
    2 = (busyTwo (List.replicate 2 takeEdge ++ [])).busy +
      (if (busyTwo (List.replicate 2 takeEdge ++ [])).rsp.isSome then 1 else 0) := by decide

theorem witness_HostStallsCore :
    (waiting (List.replicate 3 idleEdge ++ [])).busy = 0 ∧
    (waiting (List.replicate 3 idleEdge ++ [])).rsp = some 7#160 ∧
    (waiting (List.replicate 3 idleEdge ++ [])).held = none ∧
    (waiting (List.replicate 3 idleEdge ++ [])).drive = List.replicate 3 idleEdge ++ [] := by decide

/-- A PUSH that waits for nothing more, and a FINISH of one block in one cycle: its one edge is for the
response. -/
theorem witness_PortsCarryCommandToCompletion :
    (driven (commandEdge (encode (.push 0x61#8)) :: (List.replicate 0 takeEdge ++ []))).Ready ∧
    occupancy (.push 0x61#8) (driven []) + (if (.push 0x61#8 : Instr) = .finish then 1 else 0) = 0 ∧
    (∃ t, runOp (.cmd (.push 0x61#8)) (driven []) = .next t) ∧
    (driven (commandEdge (encode .finish) :: (List.replicate 1 takeEdge ++ []))).Ready ∧
    occupancy .finish (driven []) + (if (.finish : Instr) = .finish then 1 else 0) = 1 ∧
    (∃ t, runOp (.cmd .finish) (driven []) = .next t) := by
  refine ⟨⟨rfl, rfl, rfl⟩, by decide, ?_, ⟨rfl, rfl, rfl⟩, by decide, ?_⟩
  · rw [runOp, exec_push_of_lt (s := driven []) 0x61#8 rfl (by decide)]
    exact ⟨_, rfl⟩
  · rw [runOp, exec_finish_of_lt (s := driven []) rfl (by decide)]
    exact ⟨_, rfl⟩

/-- A state with an almost full buffer meets the invariant; it takes a step. -/
theorem witness_StepKeepsInvariant :
    { pushed61 63 with drive := [commandEdge 0x161#10] }.Inv ∧
    ∃ t, step { pushed61 63 with drive := [commandEdge 0x161#10] } = .next t := by
  constructor
  · exact ⟨by decide +kernel, by decide, toNat_free_t 0, by decide, by decide⟩
  · rw [step, edge_of_command (s := dropEdge _) (w := 0x161#10) rfl (.inl rfl) rfl rfl rfl,
      acceptCommand_of_decode (i := .push 0x61#8) (by decide),
      exec_push_of_full (s := releaseHeld _) 0x61#8 rfl rfl]
    exact ⟨_, rfl⟩

theorem witness_StepNeverFaults : { pushed61 63 with drive := [commandEdge 0x200#10] }.Inv :=
  ⟨by decide +kernel, by decide, toNat_free_t 0, by decide, by decide⟩

/-- 64 and 127, the ends of the range that no run reaches. -/
theorem witness_BufferIndexOutOfRangeFaults :
    (atFill 64#7).consumed = false ∧ 64 ≤ (atFill 64#7).filled.toNat ∧
    (atFill 127#7).consumed = false ∧ 64 ≤ (atFill 127#7).filled.toNat := by decide

theorem witness_ResetEquivalence :
    used.rsp = none ∧
    disciplined false [.cmd (.push 0x61#8), .cmd .finish, .cmd .reset, .cmd .finish, .new] = true := by decide

/-- The ends of the range that stores, the value that compresses, and a consumed state. -/
theorem witness_PushAbsorbsByte :
    (atFill 0#7).consumed = false ∧ (atFill 0#7).filled.toNat < 63 ∧
    (atFill 62#7).consumed = false ∧ (atFill 62#7).filled.toNat < 63 ∧
    (atFill 63#7).consumed = false ∧ (atFill 63#7).filled.toNat < 64 ∧ (atFill 63#7).filled.toNat = 63 ∧
    used.consumed = true := by decide

theorem witness_PushAddsEightBits :
    (atFill 0#7).consumed = false ∧ (atFill 0#7).filled.toNat < 64 ∧ (atFill 63#7).filled.toNat < 64 ∧
    { atFill 63#7 with nblk := BitVec.ofNat 64 (2 ^ 64 - 2) }.nblk.toNat < 2 ^ 64 - 1 := by decide

theorem witness_AbsorbedMessage : State.reset.Fresh ∧ State.reset.rsp = none := ⟨⟨rfl, rfl, rfl, rfl⟩, rfl⟩

theorem witness_BlockCopyUpdateEqualsPushes :
    (atFill 63#7).consumed = false ∧ (atFill 63#7).filled.toNat < 64 ∧ (atFill 63#7).rsp = none := by decide

theorem witness_ChunkingInvariance :
    (atFill 0#7).consumed = false ∧ (atFill 0#7).filled.toNat < 64 ∧
    (atFill 63#7).consumed = false ∧ (atFill 63#7).filled.toNat < 64 := by decide

theorem witness_RotationMovesBits : 1 ≤ 1 ∧ 1 ≤ 31 ∧ 1 ≤ 31 ∧ 31 ≤ 31 ∧ 0 < 32 ∧ 31 < 32 := by decide

/-- The rounds where the groups meet. -/
theorem witness_RoundFunctionBits : ∀ t ∈ [0, 19, 20, 39, 40, 59, 60, 79], t < 80 := by decide

theorem witness_RoundConstants : ∀ t ∈ [0, 19, 20, 39, 40, 59, 60, 79], t < 80 := by decide

theorem witness_LoadBigEndianWords : 0 < 16 ∧ 15 < 16 := by decide

theorem witness_ScheduleIsCanonical : (16 ≤ 16 ∧ 16 < 80) ∧ (16 ≤ 79 ∧ 79 < 80) ∧ 32 ≤ 32 ∧ 0 < 16 ∧ 15 < 16 := by
  decide

theorem witness_CompressIsBlockFunction : 0 ≤ 80 ∧ 80 ≤ 80 := by decide

/-- Two states that differ in a stale byte: same H and the same sixty-four bytes once it is overwritten. -/
theorem witness_CompressFrame :
    (pushed61 64).h = (putByte 3 0x61#8 (pushed61 64)).h ∧
    ∀ i, i < 64 → (pushed61 64).byteAt i = (putByte 3 0x61#8 (pushed61 64)).byteAt i := by decide +kernel

theorem witness_CaptureLength : (atFill 63#7).filled.toNat < 64 := by decide

theorem witness_MarkPutsTerminator : (atFill 0#7).filled.toNat < 64 ∧ (atFill 63#7).filled.toNat < 64 := by decide

theorem witness_PutlenWritesBigEndian : 0 < 8 ∧ 7 < 8 ∧ (55 < 56 ∨ 64 ≤ 55) ∧ (64 < 56 ∨ 64 ≤ 64) := by decide

theorem witness_DigestSerialisation : (0 < 5 ∧ 4 < 5) ∧ (0 < 4 ∧ 3 < 4) := by decide

/-- What MARK leaves at both ends of both paths. -/
theorem witness_FillBlockTakesOneOrTwoBlocks :
    (atFill 1#7).filled.toNat ≤ 56 ∧ (atFill 56#7).filled.toNat ≤ 56 ∧
    57 ≤ (atFill 57#7).filled.toNat ∧ (atFill 57#7).filled.toNat ≤ 64 ∧
    57 ≤ (atFill 64#7).filled.toNat ∧ (atFill 64#7).filled.toNat ≤ 64 := by decide

/-- Both ends of both paths. -/
theorem witness_FinishPadsAndResponds :
    (atFill 0#7).consumed = false ∧ (atFill 0#7).filled.toNat ≤ 55 ∧ (atFill 55#7).filled.toNat ≤ 55 ∧
    56 ≤ (atFill 56#7).filled.toNat ∧ 56 ≤ (atFill 63#7).filled.toNat ∧
    (atFill 63#7).consumed = false ∧ (atFill 63#7).filled.toNat < 64 := by decide

theorem witness_OnlyFinishResponds :
    (∃ t, exec .reset (atFill 0#7) = .next t) ∧ (∃ t, exec (.push 0x61#8) (atFill 0#7) = .next t) ∧
    (atFill 0#7).consumed = false ∧ (∃ t, exec .finish (atFill 0#7) = .next t) :=
  ⟨⟨_, exec_reset _⟩, ⟨_, exec_push_of_lt _ rfl (by decide)⟩, rfl, ⟨_, exec_finish_of_lt rfl (by decide)⟩⟩

theorem witness_MisuseCompletes : used.consumed = true := by decide

/-- A step that accepts RESET on a consumed state: CONSUMED changes. -/
theorem witness_ConsumedChangesOnlyAtResetAndFinish :
    ∃ t, step (usedDriven [commandEdge 0x000#10]) = .next t ∧
      t.consumed ≠ (usedDriven [commandEdge 0x000#10]).consumed := by
  refine ⟨occupy (occupancy .reset used)
    (endDraw (toInitial (releaseHeld (dropEdge (usedDriven [commandEdge 0x000#10]))))), ?_, by decide⟩
  rw [step, edge_of_command (s := dropEdge _) (w := 0x000#10) rfl (.inl rfl) rfl rfl rfl,
    acceptCommand_of_decode (i := .reset) (by decide)]
  rfl

/-- Two states that differ in a stale byte and in a scratch register. -/
theorem witness_StaleBytesNeverInfluenceResponses :
    { atFill 1#7 with buf := [(0, 5#8), (1, 7#8)] }.Alike
      { atFill 1#7 with buf := [(0, 5#8), (1, 9#8)], scratch := Scratch.free 9 } ∧
    (atFill 1#7).filled.toNat < 64 ∧ (atFill 1#7).rsp = none ∧
    disciplined false [.cmd (.push 0x61#8), .cmd .finish] = true := by
  refine ⟨⟨rfl, rfl, rfl, ⟨rfl, rfl⟩, ?_⟩, by decide, rfl, by decide⟩
  intro i hi
  have h0 : i = 0 := by
    have hf : (1#7 : BitVec 7).toNat = 1 := by decide
    have hl : i < (1#7 : BitVec 7).toNat := hi
    omega
  subst h0
  rfl

theorem witness_DigestIsSha1 : State.reset.Fresh ∧ State.reset.rsp = none ∧ used.rsp = none :=
  ⟨⟨rfl, rfl, rfl, rfl⟩, rfl, rfl⟩

end Sys2Proof.Tests
end

/-! PROOFS. The family of 10_state.md: the state after hardware reset, the invariant that every step keeps,
and what changes CONSUMED. First what each command can do when it completes, then what each operation makes of
the invariant, then the statements. -/

namespace Sys2Proof.Machine

/-! ### What a command does when it completes -/

/-- Everything a PUSH can do when it completes (R65, R141). -/
theorem exec_push_next_cases {d : Byte} {s t : State} (h : exec (.push d) s = .next t) :
    (s.consumed = true ∧ t = endDraw (misuse s)) ∨
    (s.consumed = false ∧ s.filled.toNat < 63 ∧ t = bumpFilled (putByte s.filled.toNat d s)) ∨
    (s.consumed = false ∧ s.filled = 63#7 ∧
      t = releaseScratch (clearFilled (compress (bumpFilled (putByte 63 d s))))) := by
  cases hc : s.consumed with
  | true => rw [exec_push_of_consumed d hc] at h; cases h; exact .inl ⟨rfl, rfl⟩
  | false =>
    rcases Nat.lt_trichotomy s.filled.toNat 63 with hf | hf | hf
    · rw [exec_push_of_lt d hc hf] at h; cases h; exact .inr (.inl ⟨rfl, hf, rfl⟩)
    · have h63 : s.filled = 63#7 := by bv_omega
      rw [exec_push_of_full d hc h63] at h; cases h; exact .inr (.inr ⟨rfl, h63, rfl⟩)
    · rw [exec_push_of_ge d hc hf] at h; cases h

/-- Everything a FINISH can do when it completes (R101, R141). -/
theorem exec_finish_next_cases {s t : State} (h : exec .finish s = .next t) :
    (s.consumed = true ∧ t = endDraw (respond (Config.freeResponse s.draws) (misuse s))) ∨
    (s.consumed = false ∧ s.filled.toNat < 64 ∧
      t = finishEnd (compress (putlen (fillBlock
        (bumpFilled (putByte s.filled.toNat terminator (capture s))))))) := by
  cases hc : s.consumed with
  | true => rw [exec_finish_of_consumed hc] at h; cases h; exact .inl ⟨rfl, rfl⟩
  | false =>
    rcases Nat.lt_or_ge s.filled.toNat 64 with hf | hf
    · rw [exec_finish_of_lt hc hf] at h; cases h; exact .inr ⟨rfl, hf, rfl⟩
    · rw [exec_finish_of_ge hc hf] at h; cases h

/-- RESET clears CONSUMED (R61). -/
theorem consumed_of_exec_reset {s t : State} (h : exec .reset s = .next t) : t.consumed = false := by
  cases h; simp

/-- PUSH leaves CONSUMED alone, on a consumed state too (R65, R141). -/
theorem consumed_of_exec_push {d : Byte} {s t : State} (h : exec (.push d) s = .next t) :
    t.consumed = s.consumed := by
  obtain ⟨-, rfl⟩ | ⟨-, -, rfl⟩ | ⟨-, -, rfl⟩ := exec_push_next_cases h <;> simp

/-- FINISH leaves CONSUMED set (R101, R141). -/
theorem consumed_of_exec_finish {s t : State} (h : exec .finish s = .next t) : t.consumed = true := by
  obtain ⟨hc, rfl⟩ | ⟨-, -, rfl⟩ := exec_finish_next_cases h
  · simpa using hc
  · simp

/-! ### The invariant under each operation -/

section
variable {s : State}

/-- An edge that has gone by leaves the invariant, which does not speak of the host's side. -/
theorem State.Inv.dropEdge (h : s.Inv) : (dropEdge s).Inv := { h with }

/-- A presented word that waits leaves the invariant. -/
theorem State.Inv.keepPresented (e : PortIn) (h : s.Inv) : (keepPresented e s).Inv := { h with }

/-- A word that is held no longer leaves the invariant. -/
theorem State.Inv.releaseHeld (h : s.Inv) : (releaseHeld s).Inv := { h with }

/-- A busy edge leaves the invariant. -/
theorem State.Inv.passBusyEdge (h : s.Inv) : (passBusyEdge s).Inv := { h with }

/-- A command's latency leaves the invariant. -/
theorem State.Inv.occupy (n : Nat) (h : s.Inv) : (occupy n s).Inv := { h with }

/-- The delivery of the response keeps the invariant: nothing is pending, and draws are only counted up. -/
theorem State.Inv.takeResponse (x : Digest) (h : s.Inv) : (takeResponse x s).Inv :=
  { h with
    pendingConsumed := by simp
    bufDrawn := by simpa using Nat.lt_succ_of_lt h.bufDrawn }

/-- A hardware reset establishes the invariant from any state whatever (R60). -/
theorem inv_hardwareReset (s : State) : (hardwareReset s).Inv where
  bufWf := by simp
  filledBound := by simp
  indexBound := by simpa using toNat_free_t s.draws
  pendingConsumed := by simp
  bufDrawn := by simp

/-- RESET keeps the invariant when no response is pending, as it clears CONSUMED (R61). -/
theorem State.Inv.exec_reset {t : State} (h : s.Inv) (hr : s.rsp = none) (ht : exec .reset s = .next t) :
    t.Inv := by
  cases ht
  exact {
    bufWf := by simpa using h.bufWf
    filledBound := by simp
    indexBound := by simpa using toNat_free_t s.draws
    pendingConsumed := by simp [hr]
    bufDrawn := by simpa using Nat.lt_succ_of_lt h.bufDrawn }

/-- PUSH keeps the invariant: below 63 FILLED stays in range, at 63 the flush empties the buffer, and on a
consumed state every element is a draw in its range (R65, R141). -/
theorem State.Inv.exec_push {d : Byte} {t : State} (h : s.Inv) (ht : exec (.push d) s = .next t) : t.Inv := by
  obtain ⟨-, rfl⟩ | ⟨-, hf, rfl⟩ | ⟨-, hf, rfl⟩ := exec_push_next_cases ht
  · exact {
      bufWf := by simp
      filledBound := by simpa using toNat_freeFilled s.draws
      indexBound := by simpa using toNat_free_t s.draws
      pendingConsumed := by simpa using h.pendingConsumed
      bufDrawn := by simp }
  · exact {
      bufWf := wf_putByte d h.filledBound h.bufWf
      filledBound := by rw [bumpFilled_filled, putByte_filled, toNat_filled_succ h.filledBound]; omega
      indexBound := h.indexBound
      pendingConsumed := h.pendingConsumed
      bufDrawn := h.bufDrawn }
  · exact {
      bufWf := by simpa using wf_putByte d (by decide : 63 < 64) h.bufWf
      filledBound := by simp
      indexBound := by simpa using toNat_free_t s.draws
      pendingConsumed := by simpa using h.pendingConsumed
      bufDrawn := by simpa using Nat.lt_succ_of_lt h.bufDrawn }

/-- FINISH keeps the invariant: it leaves CONSUMED set under its response, and FILLED a draw in 0..63
(R101, R104, R141). -/
theorem State.Inv.exec_finish {t : State} (h : s.Inv) (ht : exec .finish s = .next t) : t.Inv := by
  have hc := consumed_of_exec_finish ht
  obtain ⟨-, rfl⟩ | ⟨-, hf, rfl⟩ := exec_finish_next_cases ht
  · exact {
      bufWf := by simp
      filledBound := by simpa using toNat_freeFilled s.draws
      indexBound := by simpa using toNat_free_t s.draws
      pendingConsumed := fun _ => hc
      bufDrawn := by simp }
  · have hmark : Memory.wf (bumpFilled (putByte s.filled.toNat terminator (capture s))).buf = true := by
      simpa using wf_putByte terminator hf h.bufWf
    exact {
      bufWf := by rw [finishEnd_buf, compress_buf]; exact wf_putlen (wf_fillBlock hmark)
      filledBound := by simpa using toNat_freeFilled s.draws
      indexBound := by simpa using toNat_free_t s.draws
      pendingConsumed := fun _ => hc
      bufDrawn := by simpa using Nat.lt_succ_of_lt h.bufDrawn }

/-- RESET alone needs that no response is pending; an edge accepts a command only then (R51). -/
theorem State.Inv.exec {i : Instr} {t : State} (h : s.Inv) (hr : s.rsp = none) (ht : exec i s = .next t) :
    t.Inv := by
  cases i with
  | reset => exact h.exec_reset hr ht
  | push d => exact h.exec_push ht
  | finish => exact h.exec_finish ht

/-- Every edge keeps the invariant: a hardware reset establishes it, an accepted command keeps it, and the
other edges change nothing that it speaks of but the pending response and the draws. -/
theorem State.Inv.edge {e : PortIn} {t : State} (h : s.Inv) (ht : edge e s = .next t) : t.Inv := by
  obtain ⟨-, rfl⟩ | ⟨-, -, rfl⟩ | ⟨-, -, x, -, -, rfl⟩ | ⟨-, -, -, rfl⟩ | ⟨-, -, -, -, rfl⟩ |
    ⟨-, -, hr, w, i, u, -, -, hu, rfl⟩ := edge_next_cases ht
  · exact inv_hardwareReset s
  · exact h.passBusyEdge.keepPresented e
  · exact (h.takeResponse x).keepPresented e
  · exact h.keepPresented e
  · exact h.keepPresented e
  · exact (h.releaseHeld.exec (by simpa using hr) hu).occupy _

end

/-! ### CONSUMED over an edge -/

/-- A word presented at an edge stands on the command port (R50). -/
theorem presented_eq_some {e : PortIn} {w : CmdWord} (h : e.presented = some w) :
    e.cmdValid = true ∧ e.cmdWord = w := by
  simpa [PortIn.presented] using h

/-- An edge that changes CONSUMED is one with `rst`, or one at which a ready core accepts RESET or FINISH. -/
theorem edge_changes_consumed {e : PortIn} {s t : State} (ht : edge e s = .next t)
    (hne : t.consumed ≠ s.consumed) :
    e.rst = true ∨ (e.cmdValid = true ∧ s.cmdReady false = true ∧
      (decode e.cmdWord = .ok .reset ∨ decode e.cmdWord = .ok .finish)) := by
  obtain ⟨hrst, -⟩ | ⟨-, -, rfl⟩ | ⟨-, -, x, -, -, rfl⟩ | ⟨-, -, -, rfl⟩ | ⟨-, -, -, -, rfl⟩ |
    ⟨-, hb, hr, w, i, u, hp, hd, hu, rfl⟩ := edge_next_cases ht
  · exact .inl hrst
  · simp at hne
  · simp at hne
  · simp at hne
  · simp at hne
  · obtain ⟨hv, rfl⟩ := presented_eq_some hp
    refine .inr ⟨hv, by simp [State.cmdReady, hb, hr], ?_⟩
    cases i with
    | reset => exact .inl hd
    | push d => simp [consumed_of_exec_push hu] at hne
    | finish => exact .inr hd

end Sys2Proof.Machine

namespace Sys2Proof.Proofs
open Sys2Proof Sys2Proof.Machine

/-- Settles O17: the invariant survives the edge that the step samples. -/
theorem stepKeepsInvariant : Obligations.StepKeepsInvariant := by
  intro s t h ht
  exact h.dropEdge.edge ht

/-- Settles O44: by the effect of each command on CONSUMED, and by what an edge can be. -/
theorem consumedChangesOnlyAtResetAndFinish : Obligations.ConsumedChangesOnlyAtResetAndFinish := by
  refine ⟨fun i s t h => ?_, fun s t h => ⟨fun hrst => ?_, fun hne => ?_⟩⟩
  · cases i with
    | reset => exact consumed_of_exec_reset h
    | push d => exact consumed_of_exec_push h
    | finish => exact consumed_of_exec_finish h
  · rw [step, edge_of_rst hrst] at h
    cases h
    simp
  · exact edge_changes_consumed (s := dropEdge s) h (by simpa using hne)

/-- Settles O15: the values of R25 are those of `State.reset`, whose ports are idle. -/
theorem stateAfterHardwareReset : Obligations.StateAfterHardwareReset :=
  ⟨rfl, rfl, rfl, rfl, rfl, rfl⟩

/-- Settles O16: the free index T is the only value of the reset state that is not written out. -/
theorem resetMeetsInvariant : Obligations.ResetMeetsInvariant where
  bufWf := Memory.wf_nil
  filledBound := by decide
  indexBound := toNat_free_t 0
  pendingConsumed := by decide
  bufDrawn := by decide

/-- Settles O19: both commands store at FILLED first, and no byte of the buffer has that index. -/
theorem bufferIndexOutOfRangeFaults : Obligations.BufferIndexOutOfRangeFaults := by
  intro s d hc hf
  exact ⟨exec_push_of_ge d hc hf, exec_finish_of_ge hc hf⟩

end Sys2Proof.Proofs

/-! PROOFS. The family of 20_memory.md: a command carried to completion over the ports, stale bytes and the
responses, and the byte order of a digest. First what a command does to the response port and what the edges
after it do; then COMPRESS as a function of H and the buffer's bytes; then the two states that a host cannot
tell apart; then the statements. -/

namespace Sys2Proof.Machine

/-! ### Command words -/

/-- The decoder reads back what the encoder writes (R46, R55). -/
theorem decode_encode (i : Instr) : decode (encode i) = .ok i := by
  cases i with
  | reset => decide
  | push d => revert d; decide +kernel
  | finish => decide

/-! ### Commands and their responses -/

/-- RESET and PUSH leave the response port alone (R52). -/
theorem rsp_of_exec_of_ne_finish {i : Instr} {s t : State} (hi : i ≠ .finish) (h : exec i s = .next t) :
    t.rsp = s.rsp := by
  cases i with
  | reset => cases h; simp
  | push d => obtain ⟨-, rfl⟩ | ⟨-, -, rfl⟩ | ⟨-, -, rfl⟩ := exec_push_next_cases h <;> simp
  | finish => exact absurd rfl hi

/-- FINISH makes a response pending, on a consumed state too (R52, R141). -/
theorem rsp_of_exec_finish {s t : State} (h : exec .finish s = .next t) : ∃ x, t.rsp = some x := by
  obtain ⟨-, rfl⟩ | ⟨-, -, rfl⟩ := exec_finish_next_cases h <;> simp

/-- With no response pending there is nothing to take. -/
theorem takePending_of_none {s : State} (h : s.rsp = none) : takePending s = s := by
  simp [takePending, h]

/-- A pending response is taken (R53). -/
theorem takePending_of_some {s : State} {x : Digest} (h : s.rsp = some x) :
    takePending s = takeResponse x s := by
  simp [takePending, h]

/-- A command at the command level: its meaning, and then the response is taken (R41, R54). -/
theorem runOp_of_exec {i : Instr} {s t : State} (h : exec i s = .next t) :
    runOp (.cmd i) s = .next (takePending t) := by
  simp [runOp, h]

/-- A command that completes at the command level has a meaning there. -/
theorem runOp_cmd_next {i : Instr} {s t : State} (h : runOp (.cmd i) s = .next t) :
    ∃ u, exec i s = .next u ∧ t = takePending u := by
  cases hu : exec i s with
  | next u => rw [runOp_of_exec hu] at h; cases h; exact ⟨u, rfl, rfl⟩
  | fault f => simp [runOp, hu] at h
  | refused r => simp [runOp, hu] at h

/-- Taking the response leaves the edges still to be driven alone. -/
@[simp] theorem takePending_drive (s : State) : (takePending s).drive = s.drive := by
  cases h : s.rsp <;> simp [takePending, h]

/-! ### Edges driven one after the other -/

/-- The edges that a state has still to see are already driven there. -/
theorem withDrive_self {d : List PortIn} {s : State} (h : s.drive = d) : withDrive d s = s := by
  subst h
  rfl

/-- A step samples the first of the edges driven, and drops it. -/
theorem step_withDrive (e : PortIn) (d : List PortIn) (s : State) :
    step (withDrive (e :: d) s) = edge e (withDrive d s) := rfl

/-- The latency of a command does not depend on the edges still to be driven. -/
theorem occupancy_withDrive (i : Instr) (d : List PortIn) (s : State) :
    occupancy i (withDrive d s) = occupancy i s := by
  cases i <;> rfl

/-- At an edge that presents the word of a command, a ready core gives the command its whole effect and is
occupied for its latency (R27, R51). -/
theorem step_commandEdge {i : Instr} {s u : State} {d : List PortIn} (hs : s.Ready) (h : exec i s = .next u) :
    step (withDrive (commandEdge (encode i) :: d) s) =
      .next (occupy (occupancy i s) (withDrive d u)) := by
  have hkeep : releaseHeld (withDrive d s) = withDrive d s := by
    apply State.ext <;> simp [withDrive, hs.notHeld]
  rw [step_withDrive, edge_of_command (s := withDrive d s) (w := encode i) rfl (.inl hs.notHeld) hs.notBusy
    hs.noResponse rfl, acceptCommand_of_decode (decode_encode i), hkeep, exec_withDrive d h,
    occupancy_withDrive]

/-- One edge of a command in progress, the host presenting nothing (R51). -/
theorem step_busy_takeEdge (n : Nat) {s : State} (d : List PortIn) (hh : s.held = none) :
    step (occupy (n + 1) (withDrive (takeEdge :: d) s)) = .next (occupy n (withDrive d s)) := by
  have hedge : step (occupy (n + 1) (withDrive (takeEdge :: d) s)) =
      .next (keepPresented takeEdge (passBusyEdge (occupy (n + 1) (withDrive d s)))) :=
    edge_of_busy (s := occupy (n + 1) (withDrive d s)) rfl (.inl hh) (Nat.succ_ne_zero n)
  rw [hedge]
  congr 1
  apply State.ext <;> simp [withDrive, hh, PortIn.presented, takeEdge]

/-- The edges of a command in progress go by, the host presenting nothing (R51, R150). -/
theorem run_busy_takeEdges (n : Nat) {s : State} (d : List PortIn) (hh : s.held = none) :
    Host.Core.run Sys2Proof.core n (occupy n (withDrive (List.replicate n takeEdge ++ d) s)) =
      .next (occupy 0 (withDrive d s)) := by
  induction n with
  | zero => rfl
  | succ n ih =>
    rw [List.replicate_succ, List.cons_append, run_of_step (step_busy_takeEdge n _ hh), ih]

/-- A command presented to a ready core, and the edges of its latency: the core is then idle, with the whole
effect of the command and its response, if any, still to be taken (R27, R51). -/
theorem run_command {i : Instr} {s u : State} (d : List PortIn) (hs : s.Ready) (h : exec i s = .next u) :
    Host.Core.run Sys2Proof.core (1 + occupancy i s)
      (withDrive (commandEdge (encode i) :: (List.replicate (occupancy i s) takeEdge ++ d)) s) =
      .next (withDrive d u) := by
  have hside := exec_sameHostSide h
  have hidle : occupy 0 (withDrive d u) = withDrive d u := by
    apply State.ext <;> simp [withDrive, hside.busy, hs.notBusy]
  rw [Nat.add_comm, run_of_step (step_commandEdge hs h),
    run_busy_takeEdges _ d (hside.held.trans hs.notHeld), hidle]

/-- The edge that takes the response is what the command level does with it (R53, R54). -/
theorem step_takeEdge {s : State} {x : Digest} (d : List PortIn) (hb : s.busy = 0) (hh : s.held = none)
    (hx : s.rsp = some x) : step (withDrive (takeEdge :: d) s) = .next (withDrive d (takeResponse x s)) := by
  rw [step_withDrive, edge_of_response (s := withDrive d s) rfl (.inl hh) hb hx]
  congr 1
  apply State.ext <;> simp [withDrive, hh, PortIn.presented, takeEdge]

/-- The edge that a FINISH needs for its response, and no edge for another command, takes what the command level
takes (R54). -/
theorem run_responseEdge {i : Instr} {s u : State} (d : List PortIn) (hs : s.Ready) (h : exec i s = .next u) :
    Host.Core.run Sys2Proof.core (if i = .finish then 1 else 0)
      (withDrive (List.replicate (if i = .finish then 1 else 0) takeEdge ++ d) u) =
      .next (withDrive d (takePending u)) := by
  have hside := exec_sameHostSide h
  by_cases hi : i = .finish
  · subst hi
    obtain ⟨x, hx⟩ := rsp_of_exec_finish h
    rw [takePending_of_some hx]
    exact run_of_step (step_takeEdge d (hside.busy.trans hs.notBusy) (hside.held.trans hs.notHeld) hx)
  · rw [if_neg hi, takePending_of_none ((rsp_of_exec_of_ne_finish hi h).trans hs.noResponse)]
    rfl

/-- A command leaves a ready core ready once its response is taken (R51, R54). -/
theorem State.Ready.takePending_exec {i : Instr} {s u : State} (hs : s.Ready) (h : exec i s = .next u) :
    (takePending u).Ready := by
  have hside := exec_sameHostSide h
  have hb : u.busy = 0 := hside.busy.trans hs.notBusy
  have hh : u.held = none := hside.held.trans hs.notHeld
  cases hx : u.rsp with
  | none => rw [takePending_of_none hx]; exact ⟨hb, hx, hh⟩
  | some x => rw [takePending_of_some hx]; exact ⟨by simpa using hb, by simp, by simpa using hh⟩

/-! ### COMPRESS is a function of H and the bytes of the buffer -/

/-- A rotation, bit by bit (R76). -/
theorem getLsbD_rotl32 (x : Word) {n i : Nat} (hn : n ≤ 32) (hi : i < 32) :
    (rotl32 x n).getLsbD i = if i < n then x.getLsbD (32 - n + i) else x.getLsbD (i - n) := by
  simp only [rotl32, BitVec.getLsbD_or, BitVec.getLsbD_shiftLeft, BitVec.getLsbD_ushiftRight, hi]
  by_cases h : i < n
  · simp [h]
  · have hout : x.getLsbD (32 - n + i) = false := BitVec.getLsbD_of_ge x _ (by omega)
    simp [h, hout]

/-- No amount exceeds the width of a word (R76). -/
theorem RotAmount.bits_le (r : RotAmount) : r.bits ≤ 32 := by
  cases r <;> decide

/-- Rotation distributes over exclusive or (R76). -/
theorem rotl_xor (x y : Word) (r : RotAmount) : rotl (x ^^^ y) r = rotl x r ^^^ rotl y r := by
  refine BitVec.eq_of_getLsbD_eq fun i hi => ?_
  simp only [rotl, BitVec.getLsbD_xor, getLsbD_rotl32 _ r.bits_le hi]
  split <;> rfl

/-- Twice by 1 is once by 2 (R76). -/
theorem rotl_one_one (x : Word) : rotl (rotl x .one) .one = rotl x .two := by
  refine BitVec.eq_of_getLsbD_eq fun i hi => ?_
  simp only [rotl, RotAmount.bits]
  rw [getLsbD_rotl32 x (by decide : 2 ≤ 32) hi, getLsbD_rotl32 _ (by decide : 1 ≤ 32) hi]
  rcases Nat.lt_trichotomy i 1 with h | h | h
  · rw [if_pos h, if_pos (by omega), getLsbD_rotl32 x (by decide) (by omega), if_neg (by omega)]
    congr 1; omega
  · subst h
    rw [if_neg (by decide), if_pos (by decide), getLsbD_rotl32 x (by decide) (by decide), if_pos (by decide)]
  · rw [if_neg (by omega), if_neg (by omega), getLsbD_rotl32 x (by decide) (by omega), if_neg (by omega)]
    congr 1

/-- From `W[32]` on the form that rotates by 2 is the canonical recurrence, applied twice (R80). -/
theorem scheduleWord_of_ge_32 (m : Block) {t : Nat} (h : 32 ≤ t) :
    scheduleWord m t = rotl (scheduleWord m (t - 6) ^^^ scheduleWord m (t - 16) ^^^
      scheduleWord m (t - 28) ^^^ scheduleWord m (t - 32)) .two := by
  have back (k : Nat) (hk : k ≤ 16) : scheduleWord m (t - k) =
      rotl (scheduleWord m (t - (k + 3)) ^^^ scheduleWord m (t - (k + 8)) ^^^
        scheduleWord m (t - (k + 14)) ^^^ scheduleWord m (t - (k + 16))) .one := by
    rw [scheduleWord_of_ge m (by omega : 16 ≤ t - k)]
    simp only [Nat.sub_sub]
  rw [scheduleWord_of_ge m (by omega), back 3 (by decide), back 8 (by decide), back 14 (by decide),
    back 16 (by decide), ← rotl_one_one]
  simp only [← rotl_xor]
  congr 2
  -- the words at `t - 11`, `t - 17`, `t - 19`, `t - 22`, `t - 24` and `t - 30` occur twice and cancel
  simp only [Nat.reduceAdd]
  ac_nf
  simp

/-- The word that SCHED computes is the canonical one, if the words before it are (R79, R80). -/
theorem schedWord_eq_scheduleWord (m : Block) {x : Scratch} {i : Nat} (hi : 16 ≤ i)
    (h : ∀ j, j < i → x.wAt j = scheduleWord m j) : schedWord x i = scheduleWord m i := by
  by_cases h32 : i < 32
  · rw [schedWord, if_pos h32, scheduleWord_of_ge m hi, h _ (by omega), h _ (by omega), h _ (by omega),
      h _ (by omega)]
  · rw [schedWord, if_neg h32, scheduleWord_of_ge_32 m (by omega), h _ (by omega), h _ (by omega),
      h _ (by omega), h _ (by omega)]

/-- After `n` steps of the schedule the first `16 + n` words are the canonical ones of the block (R87, R88). -/
theorem wAt_scheduleSteps_loadw (s : State) {n j : Nat} (hn : n ≤ 64) (hj : j < 16 + n) :
    (scheduleSteps n (loadw s)).wAt j = scheduleWord s.block j := by
  induction n generalizing j with
  | zero =>
    rw [wAt_scheduleSteps_other 0 _ (.inl hj), loadw_wAt, wAt_loadBlock s j hj, scheduleWord_of_lt _ hj]
    rfl
  | succ n ih =>
    rw [scheduleSteps_succ, wAt_sched]
    by_cases hjn : j = 16 + n
    · subst hjn
      rw [if_pos ⟨rfl, by omega⟩]
      exact schedWord_eq_scheduleWord _ (by omega) fun k hk => ih (by omega) hk
    · rw [if_neg (by omega), ih (by omega) (by omega)]

/-- The schedule leaves the working registers as LOADW set them, from H (R78). -/
theorem working_schedule_loadw (s : State) : (schedule (loadw s)).working = s.h :=
  foldl_keeps Scratch.working (fun x i => sched i x) (fun _ _ => rfl) _ (loadw s)

/-- No round. -/
theorem firstRounds_zero (x : Scratch) : firstRounds 0 x = x := rfl

/-- Round by round the working registers are those of the recurrence (R88). -/
theorem working_firstRounds (s : State) {n : Nat} (hn : n ≤ 80) :
    (firstRounds n (schedule (loadw s))).working = roundsFrom s.block s.h n := by
  induction n with
  | zero => rw [firstRounds_zero, working_schedule_loadw, roundsFrom]
  | succ n ih =>
    have hw : (schedule (loadw s)).wAt n = scheduleWord s.block n :=
      wAt_scheduleSteps_loadw s (n := 64) (Nat.le_refl _) (by omega)
    rw [firstRounds_succ, round_working, wAt_firstRounds, hw, roundsFrom, ← ih (by omega)]
    rfl

/-- COMPRESS is the block function of the old H and the block in the buffer (R75, R88). -/
theorem compress_h_eq_compressHash (s : State) : (compress s).h = compressHash s.h s.block := by
  have hw : (roundsDone s).working = roundsFrom s.block s.h 80 := by
    unfold roundsDone
    rw [rounds, working_firstRounds s (Nat.le_refl 80)]
  rw [compress_h, compressHash, ← hw]
  rfl

/-- What COMPRESS makes of H depends on H and the sixty-four bytes alone (R75). -/
theorem compress_h_congr {s t : State} (hh : s.h = t.h) (hb : ∀ i, i < 64 → s.byteAt i = t.byteAt i) :
    (compress s).h = (compress t).h := by
  rw [compress_h_eq_compressHash, compress_h_eq_compressHash, hh]
  exact compressHash_congr hb

/-! ### Two states that a host cannot tell apart -/

section
variable {s t : State}

/-- After a hardware reset no byte of the buffer is valid, and the rest is fixed (R60). -/
theorem alike_hardwareReset (s t : State) : (hardwareReset s).Alike (hardwareReset t) where
  hash := by simp
  filled := by simp
  nblk := by simp
  notConsumed := by simp
  validBytes := by simp

/-- After RESET, likewise, whatever the states were (R61). -/
theorem alike_reset (s t : State) : (endDraw (toInitial s)).Alike (endDraw (toInitial t)) where
  hash := by simp
  filled := by simp
  nblk := by simp
  notConsumed := by simp
  validBytes := by simp

/-- The same byte stored at FILLED becomes valid in both (R65, R96). -/
theorem State.Alike.store (h : s.Alike t) (hf : s.filled.toNat < 64) (d : Byte) :
    (bumpFilled (putByte s.filled.toNat d s)).Alike (bumpFilled (putByte t.filled.toNat d t)) where
  hash := by simpa using h.hash
  filled := by simpa using h.filled
  nblk := by simpa using h.nblk
  notConsumed := by simpa using h.notConsumed
  validBytes := by
    intro i hi
    rw [bumpFilled_filled, putByte_filled, toNat_filled_succ hf] at hi
    simp only [byteAt_bumpFilled, byteAt_putByte, ← h.filled]
    split
    · rfl
    · exact h.validBytes i (by omega)

/-- With the buffer emptied no byte is valid, so H and NBLK alone are compared (R65). -/
theorem alike_emptied (hh : s.h = t.h) (hn : s.nblk = t.nblk) (hc : s.consumed = false ∧ t.consumed = false) :
    (releaseScratch (clearFilled s)).Alike (releaseScratch (clearFilled t)) where
  hash := by simpa using hh
  filled := by simp
  nblk := by simpa using hn
  notConsumed := by simpa using hc
  validBytes := by simp

/-- A full block is compressed to the same H, and no byte is valid after it (R65, R71). -/
theorem State.Alike.flush (h : s.Alike t) (hf : s.filled = 64#7) :
    (releaseScratch (clearFilled (compress s))).Alike (releaseScratch (clearFilled (compress t))) := by
  have hhash : (compress s).h = (compress t).h :=
    compress_h_congr h.hash fun i hi => h.validBytes i (by rw [hf]; exact hi)
  refine alike_emptied hhash ?_ ?_
  · rw [compress_nblk, compress_nblk, h.nblk]
  · rw [compress_consumed, compress_consumed]
    exact h.notConsumed

/-- CAPTURE reads what is alike (R95). -/
theorem State.Alike.capture (h : s.Alike t) : (capture s).Alike (capture t) :=
  ⟨h.hash, h.filled, h.nblk, h.notConsumed, h.validBytes⟩

/-- The captured lengths are the same (R95). -/
theorem State.Alike.capture_lenreg (h : s.Alike t) :
    (Machine.capture s).lenreg = (Machine.capture t).lenreg := by
  simp [h.nblk, h.filled]

/-- With the bytes from FILLED on zeroed the whole block is the same (R99). -/
theorem State.Alike.byteAt_zeroFill (h : s.Alike t) {i : Nat} (hi : i < 64) :
    (zeroFill s.filled.toNat 64 s).byteAt i = (zeroFill t.filled.toNat 64 t).byteAt i := by
  rw [Machine.byteAt_zeroFill, Machine.byteAt_zeroFill, ← h.filled]
  split
  · rfl
  · exact h.validBytes i (by omega)

/-- Filling the block leaves the same H, whether it compresses or not (R98, R99). -/
theorem State.Alike.fillBlock_h (h : s.Alike t) : (fillBlock s).h = (fillBlock t).h := by
  rw [fillBlock, fillBlock, ← h.filled]
  split
  · simpa using h.hash
  · rw [spill_h, spill_h]
    exact compress_h_congr (by simpa using h.hash) fun i hi => h.byteAt_zeroFill hi

/-- Filling the block leaves the same bytes up to the length field: valid ones and zeros (R98, R99). -/
theorem State.Alike.fillBlock_byteAt (h : s.Alike t) {i : Nat} (hi : i < 56) :
    (fillBlock s).byteAt i = (fillBlock t).byteAt i := by
  rw [fillBlock, fillBlock, ← h.filled]
  split
  · rw [byteAt_zfill, byteAt_zfill, ← h.filled]
    split
    · rfl
    · exact h.validBytes i (by omega)
  · rw [byteAt_spill, byteAt_spill, if_pos (.inl hi), if_pos (.inl hi)]

/-- The block that FINISH compresses last is the same, and so is the H that it makes (R38, R101). -/
theorem State.Alike.padded_h (h : s.Alike t) (hl : s.lenreg = t.lenreg) :
    (compress (putlen (fillBlock s))).h = (compress (putlen (fillBlock t))).h := by
  refine compress_h_congr (by simpa using h.fillBlock_h) fun i hi => ?_
  rw [byteAt_putlen, byteAt_putlen, fillBlock_lenreg, fillBlock_lenreg, hl]
  split
  · rfl
  · exact h.fillBlock_byteAt (by omega)

/-- FINISH answers the same from both (R39). -/
theorem State.Alike.exec_finish (h : s.Alike t) (hf : s.filled.toNat < 64) :
    ∃ s' t' x, exec .finish s = .next s' ∧ exec .finish t = .next t' ∧ s'.rsp = some x ∧ t'.rsp = some x := by
  have hpad := (h.capture.store hf terminator).padded_h (by simpa using h.capture_lenreg)
  rw [capture_filled, capture_filled] at hpad
  refine ⟨_, _, _, exec_finish_of_lt h.notConsumed.1 hf,
    exec_finish_of_lt h.notConsumed.2 (h.filled ▸ hf), finishEnd_rsp _, ?_⟩
  rw [finishEnd_rsp, hpad]

/-- PUSH keeps them alike, FILLED in range (R65). -/
theorem State.Alike.exec_push (h : s.Alike t) (hf : s.filled.toNat < 64) (d : Byte) :
    ∃ s' t', exec (.push d) s = .next s' ∧ exec (.push d) t = .next t' ∧ s'.Alike t' ∧ s'.filled.toNat < 64 := by
  have hstore := h.store hf d
  by_cases h63 : s.filled.toNat = 63
  · have hs63 : s.filled = 63#7 := by bv_omega
    have ht63 : t.filled = 63#7 := h.filled ▸ hs63
    rw [hs63, ht63] at hstore
    exact ⟨_, _, exec_push_of_full d h.notConsumed.1 hs63, exec_push_of_full d h.notConsumed.2 ht63,
      hstore.flush (by simp [hs63]), by simp⟩
  · refine ⟨_, _, exec_push_of_lt d h.notConsumed.1 (by omega),
      exec_push_of_lt d h.notConsumed.2 (by rw [← h.filled]; omega), hstore, ?_⟩
    rw [bumpFilled_filled, putByte_filled, toNat_filled_succ hf]
    omega

end

/-! ### Sequences that keep R140, from two such states -/

/-- Between operations that keep R140: both states consumed, or neither and then alike; no response waits. -/
structure Tracks (c : Bool) (s t : State) : Prop where
  consumed : s.consumed = c ∧ t.consumed = c
  noResponse : s.rsp = none ∧ t.rsp = none
  alike : c = false → s.Alike t ∧ s.filled.toNat < 64

/-- A run of the host's operations completes from both states, delivers the same responses from both, and
leaves the two tracking each other. -/
def SameResponses (run : State → Host.Outcome State Fault Refusal) (c : Bool) (s t : State) : Prop :=
  ∃ s' t' xs, run s = .next s' ∧ run t = .next t' ∧
    s'.delivered = s.delivered ++ xs ∧ t'.delivered = t.delivered ++ xs ∧ Tracks c s' t'

section
variable {c : Bool} {s t : State}

/-- States that are alike track each other, as neither is consumed. -/
theorem State.Alike.tracks (h : s.Alike t) (hf : s.filled.toNat < 64) (hs : s.rsp = none) (ht : t.rsp = none) :
    Tracks false s t :=
  ⟨h.notConsumed, ⟨hs, ht⟩, fun _ => ⟨h, hf⟩⟩

/-- A command without a response delivers nothing, from either state. -/
theorem sameResponses_of_silent {i : Instr} {s' t' : State} (hs : exec i s = .next s')
    (ht : exec i t = .next t') (h : Tracks c s' t') : SameResponses (runOp (.cmd i)) c s t := by
  refine ⟨s', t', [], ?_, ?_, ?_, ?_, h⟩
  · rw [runOp_of_exec hs, takePending_of_none h.noResponse.1]
  · rw [runOp_of_exec ht, takePending_of_none h.noResponse.2]
  · rw [List.append_nil, (exec_sameHostSide hs).delivered]
  · rw [List.append_nil, (exec_sameHostSide ht).delivered]

/-- A hardware reset delivers nothing (R60). -/
theorem sameResponses_new (s t : State) : SameResponses (runOp .new) false s t :=
  ⟨hardwareReset s, hardwareReset t, [], rfl, rfl, by simp, by simp,
    (alike_hardwareReset s t).tracks (by simp) (by simp) (by simp)⟩

/-- RESET, consumed or not (R62). -/
theorem Tracks.reset (h : Tracks c s t) : SameResponses (runOp (.cmd .reset)) false s t :=
  sameResponses_of_silent (exec_reset s) (exec_reset t)
    ((alike_reset s t).tracks (by simp) (by simpa using h.noResponse.1) (by simpa using h.noResponse.2))

/-- PUSH on states that are not consumed. -/
theorem Tracks.push (h : Tracks false s t) (d : Byte) : SameResponses (runOp (.cmd (.push d))) false s t := by
  obtain ⟨halike, hf⟩ := h.alike rfl
  obtain ⟨s', t', hs, ht, halike', hf'⟩ := halike.exec_push hf d
  refine sameResponses_of_silent hs ht (halike'.tracks hf' ?_ ?_)
  · exact (rsp_of_exec_of_ne_finish (by simp) hs).trans h.noResponse.1
  · exact (rsp_of_exec_of_ne_finish (by simp) ht).trans h.noResponse.2

/-- FINISH on states that are not consumed: one response, the same from both (R39). -/
theorem Tracks.finish (h : Tracks false s t) : SameResponses (runOp (.cmd .finish)) true s t := by
  obtain ⟨halike, hf⟩ := h.alike rfl
  obtain ⟨s', t', x, hs, ht, hsx, htx⟩ := halike.exec_finish hf
  refine ⟨takeResponse x s', takeResponse x t', [x], ?_, ?_, ?_, ?_, ?_, ?_, ?_⟩
  · rw [runOp_of_exec hs, takePending_of_some hsx]
  · rw [runOp_of_exec ht, takePending_of_some htx]
  · rw [takeResponse_delivered, (exec_sameHostSide hs).delivered]
  · rw [takeResponse_delivered, (exec_sameHostSide ht).delivered]
  · exact ⟨by simpa using consumed_of_exec_finish hs, by simpa using consumed_of_exec_finish ht⟩
  · simp
  · simp

/-- Each operation that R140 allows. -/
theorem Tracks.runOp (h : Tracks c s t) {op : HostOp} {ops : List HostOp}
    (hd : disciplined c (op :: ops) = true) :
    ∃ c', SameResponses (runOp op) c' s t ∧ disciplined c' ops = true := by
  match op with
  | .new => exact ⟨false, sameResponses_new s t, hd⟩
  | .cmd .reset => exact ⟨false, h.reset, hd⟩
  | .cmd (.push d) =>
    obtain ⟨rfl, hops⟩ : c = false ∧ disciplined c ops = true := by simpa [disciplined] using hd
    exact ⟨false, h.push d, hops⟩
  | .cmd .finish =>
    obtain ⟨rfl, hops⟩ : c = false ∧ disciplined true ops = true := by simpa [disciplined] using hd
    exact ⟨true, h.finish, hops⟩

/-- The responses to a first operation, and then to the rest. -/
theorem SameResponses.cons {c' : Bool} {op : HostOp} {ops : List HostOp}
    (h : SameResponses (Machine.runOp op) c' s t)
    (hrest : ∀ {s t}, Tracks c' s t → ∃ c'', SameResponses (runOps ops) c'' s t) :
    ∃ c'', SameResponses (runOps (op :: ops)) c'' s t := by
  obtain ⟨s₁, t₁, xs, hs, ht, hsx, htx, htracks⟩ := h
  obtain ⟨c'', s₂, t₂, ys, hs₂, ht₂, hsy, hty, htracks₂⟩ := hrest htracks
  refine ⟨c'', s₂, t₂, xs ++ ys, ?_, ?_, ?_, ?_, htracks₂⟩
  · rw [runOps, hs]; exact hs₂
  · rw [runOps, ht]; exact ht₂
  · rw [hsy, hsx, List.append_assoc]
  · rw [hty, htx, List.append_assoc]

/-- Every sequence that keeps R140. -/
theorem Tracks.runOps {p : List HostOp} (h : Tracks c s t) (hd : disciplined c p = true) :
    ∃ c', SameResponses (runOps p) c' s t := by
  induction p generalizing c s t with
  | nil => exact ⟨c, s, t, [], rfl, rfl, by simp, by simp, h⟩
  | cons op ops ih =>
    obtain ⟨c', hop, hops⟩ := h.runOp hd
    exact hop.cons fun htracks => ih htracks hops

end

/-! ### The bytes of a digest -/

/-- A part of the digest that lies inside word `i` is that part of the word (R52). -/
theorem extractLsb'_digest (h : Hash) {i start len : Nat} (hi : i < 5) (hs : start + len ≤ 32) :
    h.digest.extractLsb' (start + 32 * (4 - i)) len =
      ([h.h0, h.h1, h.h2, h.h3, h.h4][i]).extractLsb' start len := by
  have last {n : Nat} (x : BitVec n) (w : Word) :
      (x ++ w).extractLsb' start len = w.extractLsb' start len :=
    BitVec.extractLsb'_append_eq_of_add_le hs
  have above {n : Nat} (k : Nat) (x : BitVec n) (w : Word) :
      (x ++ w).extractLsb' (k + 32) len = x.extractLsb' k len := by
    rw [BitVec.extractLsb'_append_eq_of_le (Nat.le_add_left _ _), Nat.add_sub_cancel]
  match i, hi with
  | 0, _ => exact (above (start + 96) _ _).trans <| (above (start + 64) _ _).trans <|
      (above (start + 32) _ _).trans <| above start _ _
  | 1, _ => exact (above (start + 64) _ _).trans <| (above (start + 32) _ _).trans <|
      (above start _ _).trans <| last _ _
  | 2, _ => exact (above (start + 32) _ _).trans <| (above start _ _).trans <| last _ _
  | 3, _ => exact (above start _ _).trans <| last _ _
  | 4, _ => exact last _ _

/-- The bytes of a digest, counted from its most significant end (R35). -/
theorem digestBytes_getElem? (x : Digest) {m : Nat} (hm : m < 20) :
    (digestBytes x)[m]? = some (x.extractLsb' (152 - 8 * m) 8) := by
  simp [digestBytes, hm]

end Sys2Proof.Machine

namespace Sys2Proof.Proofs
open Sys2Proof Sys2Proof.Machine

/-- Settles O14: the edges of the latency lead to the effect of the command, and the edge after them takes the
response of a FINISH; RESET and PUSH have none. -/
theorem portsCarryCommandToCompletion : Obligations.PortsCarryCommandToCompletion := by
  intro i s t rest hs hdrive hrun
  obtain ⟨u, hu, rfl⟩ := runOp_cmd_next hrun
  have hready : (withDrive rest s).Ready := ⟨hs.notBusy, hs.noResponse, hs.notHeld⟩
  have hdriven : withDrive (commandEdge (encode i) :: (List.replicate (occupancy i s) takeEdge ++
      (List.replicate (if i = .finish then 1 else 0) takeEdge ++ rest))) (withDrive rest s) = s := by
    rw [← List.append_assoc, ← List.replicate_add, ← hdrive]
    rfl
  have hcmd := run_command (List.replicate (if i = .finish then 1 else 0) takeEdge ++ rest) hready hu
  rw [occupancy_withDrive, hdriven] at hcmd
  have hrest : (takePending u).drive = rest := by
    rw [takePending_drive]
    exact (exec_sameHostSide hu).drive
  refine ⟨?_, hready.takePending_exec hu⟩
  rw [run_add hcmd, run_responseEdge rest hready hu, withDrive_self hrest]

/-- Settles O45: alike states track each other over any sequence that keeps R140. -/
theorem staleBytesNeverInfluenceResponses : Obligations.StaleBytesNeverInfluenceResponses := by
  intro s t p h hf hs ht hd
  obtain ⟨-, s', t', xs, hs', ht', hsx, htx, -⟩ := (h.tracks hf hs ht).runOps hd
  exact ⟨s', t', xs, hs', ht', hsx, htx⟩

/-- Settles O42: byte `4i + k` begins `24 - 8k` bits above the low end of word `i`, and lies inside it. -/
theorem digestSerialisation : Obligations.DigestSerialisation := by
  intro h
  refine ⟨by simp [digestBytes], fun i k hi hk => ?_⟩
  have hpos : 152 - 8 * (4 * i + k) = (24 - 8 * k) + 32 * (4 - i) := by omega
  rw [digestBytes_getElem? _ (by omega), hpos, extractLsb'_digest h hi (by omega),
    List.getElem?_eq_getElem hi, Option.map_some]

end Sys2Proof.Proofs

/-! PROOFS. The family of 30_encoding.md: which words are commands and which are reserved, the handshakes of the
command port and of the response port, and the pseudo-commands. First the words and the decoder; then what a step
is at each kind of edge; then the statements. -/

namespace Sys2Proof.Machine

/-! ### The two fields of a command word -/

/-- The `op` field is what stands before `data` (R45). -/
theorem op_append (o : BitVec 2) (d : Byte) : CmdWord.op (o ++ d) = o :=
  BitVec.extractLsb'_append_eq_left

/-- The `data` field is what stands after `op` (R45). -/
theorem data_append (o : BitVec 2) (d : Byte) : CmdWord.data (o ++ d) = d :=
  BitVec.extractLsb'_append_eq_right

/-- A command word is its two fields (R45). -/
theorem op_append_data (w : CmdWord) : CmdWord.op w ++ CmdWord.data w = w :=
  BitVec.extractLsb'_append_extractLsb' (w := 2) (len := 8)

/-- A word is known by its two fields (R45). -/
theorem eq_append_iff {w : CmdWord} {o : BitVec 2} {d : Byte} :
    w = o ++ d ↔ CmdWord.op w = o ∧ CmdWord.data w = d := by
  constructor
  · rintro rfl
    exact ⟨op_append o d, data_append o d⟩
  · rintro ⟨rfl, rfl⟩
    exact (op_append_data w).symm

/-- The `data` field is bits 7..0 (R45, R47). -/
theorem data_eq_iff {w : CmdWord} {d : Byte} :
    CmdWord.data w = d ↔ ∀ i, i < 8 → d.getLsbD i = w.getLsbD i := by
  have hbit {i : Nat} (hi : i < 8) : (CmdWord.data w).getLsbD i = w.getLsbD i := by
    simp [CmdWord.data, hi]
  constructor
  · rintro rfl i hi
    exact hbit hi
  · intro h
    exact BitVec.eq_of_getLsbD_eq fun i hi => (hbit hi).trans (h i hi).symm

/-- The `op` field as a number (R45). -/
theorem toNat_op (w : CmdWord) : (CmdWord.op w).toNat = w.toNat / 256 := by
  have := w.isLt
  simp [CmdWord.op, BitVec.extractLsb'_toNat, Nat.shiftRight_eq_div_pow]
  omega

/-- The `data` field as a number (R45). -/
theorem toNat_data (w : CmdWord) : (CmdWord.data w).toNat = w.toNat % 256 := by
  simp [CmdWord.data, BitVec.extractLsb'_toNat]

/-- The mask of RESET and of FINISH keeps the whole word (R46). -/
theorem and_fullMask (w : CmdWord) : w &&& 0x3FF#10 = w :=
  BitVec.and_allOnes

/-- The mask of PUSH keeps the `op` field (R46). -/
theorem and_opMask (w : CmdWord) : w &&& 0x300#10 = CmdWord.op w ++ 0#8 := by
  have hmask : (0x300#10 : CmdWord) = BitVec.allOnes 2 ++ 0#8 := by decide
  conv_lhs => rw [hmask, ← op_append_data w, BitVec.and_append, BitVec.and_allOnes, BitVec.and_zero]

/-- A word matches the row of PUSH exactly when its `op` field is 01 (R46). -/
theorem and_opMask_eq_iff {w : CmdWord} : w &&& 0x300#10 = 0x100#10 ↔ CmdWord.op w = 1#2 := by
  have hmatch : (0x100#10 : CmdWord) = 1#2 ++ 0#8 := by decide
  rw [and_opMask, hmatch, eq_append_iff, op_append, data_append, and_iff_left rfl]

/-! ### Decode, encode and the reserved ranges -/

/-- A row of the opcode map selects only encodings of its own command (R46). -/
theorem eq_encode_of_selects {r : OpRow} {w : CmdWord} (hr : r ∈ opcodeMap) (h : r.selects w = true) :
    w = encode (r.build (CmdWord.data w)) := by
  have hmatch : w &&& r.mask = r.pattern := eq_of_beq h
  obtain rfl | rfl | rfl : r = rowReset ∨ r = rowPush ∨ r = rowFinish := by simpa [opcodeMap] using hr
  · exact (and_fullMask w).symm.trans hmatch
  · exact eq_append_iff.2 ⟨and_opMask_eq_iff.1 hmatch, rfl⟩
  · exact (and_fullMask w).symm.trans hmatch

/-- A word that decodes to a command is that command's encoding (R46, R55). -/
theorem eq_encode_of_decode {w : CmdWord} {i : Instr} (h : decode w = .ok i) : w = encode i := by
  rw [decode] at h
  split at h
  · next r hr =>
    cases h
    exact eq_encode_of_selects (List.mem_of_find?_eq_some hr) (List.find?_some (p := fun r : OpRow => r.selects w) hr)
  · cases h

/-- A word decodes to a command exactly when it is that command's encoding (R46, R55). -/
theorem decode_eq_ok_iff {w : CmdWord} {i : Instr} : decode w = .ok i ↔ w = encode i := by
  refine ⟨eq_encode_of_decode, ?_⟩
  rintro rfl
  exact decode_encode i

/-- Every encoding is legal (R47, R48). -/
theorem legal_encode (i : Instr) : CmdWord.legal (encode i) = true := by
  cases i with
  | reset => exact Laws.Legal.reset.2
  | push d => exact (Laws.Legal.push d).2
  | finish => exact Laws.Legal.finish.2

/-- What the three reserved ranges leave: `op` 01, or `op` 00 or 10 with nothing in `data` (R48). -/
theorem fields_of_legal {w : CmdWord} (h : CmdWord.legal w = true) :
    CmdWord.op w = 1#2 ∨ (CmdWord.op w = 0#2 ∧ CmdWord.data w = 0#8) ∨
      (CmdWord.op w = 2#2 ∧ CmdWord.data w = 0#8) := by
  have hop : ∀ o : BitVec 2, o = 0#2 ∨ o = 1#2 ∨ o = 2#2 ∨ o = 3#2 := by decide
  simp only [CmdWord.legal, CmdWord.reservedOp, CmdWord.resetWithData, CmdWord.finishWithData] at h
  obtain ho | ho | ho | ho := hop (CmdWord.op w)
  · exact .inr (.inl ⟨ho, by simpa [ho] using h⟩)
  · exact .inl ho
  · exact .inr (.inr ⟨ho, by simpa [ho] using h⟩)
  · simp [ho] at h

/-- A legal word is the encoding of a command (R46, R48). -/
theorem exists_encode_of_legal {w : CmdWord} (h : CmdWord.legal w = true) : ∃ i, w = encode i := by
  obtain ho | ⟨ho, hd⟩ | ⟨ho, hd⟩ := fields_of_legal h
  · exact ⟨.push (CmdWord.data w), eq_append_iff.2 ⟨ho, rfl⟩⟩
  · exact ⟨.reset, eq_append_iff.2 ⟨ho, hd⟩⟩
  · exact ⟨.finish, eq_append_iff.2 ⟨ho, hd⟩⟩

/-- A word decodes to some command exactly when it is in none of the reserved ranges (R48). -/
theorem exists_decode_iff_legal {w : CmdWord} : (∃ i, decode w = .ok i) ↔ CmdWord.legal w = true := by
  constructor
  · rintro ⟨i, hi⟩
    rw [decode_eq_ok_iff.1 hi]
    exact legal_encode i
  · intro h
    obtain ⟨i, rfl⟩ := exists_encode_of_legal h
    exact ⟨i, decode_encode i⟩

/-- The reserved ranges as numbers (R48). -/
theorem not_legal_of_toNat {w : CmdWord}
    (h : 0x300 ≤ w.toNat ∨ (0x001 ≤ w.toNat ∧ w.toNat ≤ 0x0FF) ∨ (0x201 ≤ w.toNat ∧ w.toNat ≤ 0x2FF)) :
    ¬ CmdWord.legal w = true := by
  intro hl
  have hfields := fields_of_legal hl
  simp only [← BitVec.toNat_inj, toNat_op, toNat_data, BitVec.toNat_ofNat] at hfields
  omega

/-- A word that is not legal decodes to nothing (R48). -/
theorem decode_error_of_not_legal {w : CmdWord} (h : ¬ CmdWord.legal w = true) :
    ∃ r, decode w = .error r := by
  cases hd : decode w with
  | error r => exact ⟨r, rfl⟩
  | ok i => exact absurd (exists_decode_iff_legal.1 ⟨i, hd⟩) h

/-- Accepting a word that decodes to nothing (R48). -/
theorem acceptCommand_of_error {w : CmdWord} {r : Reserved} (h : decode w = .error r) (s : State) :
    acceptCommand w s = .refused (.reservedWord w) := by
  simp [acceptCommand, h]

/-! ### What a step is at each kind of edge -/

/-- A word that stands on the command port with `cmd_valid` is presented (R51). -/
theorem presented_of_valid {e : PortIn} {w : CmdWord} (hv : e.cmdValid = true) (hw : e.cmdWord = w) :
    e.presented = some w := by
  simp [PortIn.presented, hv, hw]

/-- An edge at which the word that the host holds is not presented (R51, R147). -/
theorem edge_of_unstable {e : PortIn} {s : State} {w : CmdWord} (h : e.rst = false) (hh : s.held = some w)
    (hp : e.presented ≠ some w) : edge e s = .refused (.unstableCommand w) := by
  simp [edge, portEvent, h, hh, hp]

/-- A step at whose edge a ready core is presented a command word (R51). -/
theorem step_of_command {s : State} {w : CmdWord} (hb : s.busy = 0) (hx : s.rsp = none)
    (hh : s.held = none ∨ s.held = some w) (hr : s.nextEdge.rst = false) (hv : s.nextEdge.cmdValid = true)
    (hw : s.nextEdge.cmdWord = w) : step s = acceptCommand w (dropEdge s) :=
  edge_of_command (s := dropEdge s) hr hh hb hx (presented_of_valid hv hw)

/-- A step at whose edge a response is pending (R53, R54). -/
theorem step_of_response {s : State} {x : Digest} (hb : s.busy = 0) (hx : s.rsp = some x)
    (hh : s.held = none ∨ s.held = s.nextEdge.presented) (hr : s.nextEdge.rst = false) :
    step s = .next (keepPresented s.nextEdge
      (if s.nextEdge.rspReady then takeResponse x (dropEdge s) else dropEdge s)) :=
  edge_of_response (s := dropEdge s) hr hh hb hx

/-- The edge that goes by does not change the latency of a command (R150). -/
theorem occupancy_dropEdge (i : Instr) (s : State) : occupancy i (dropEdge s) = occupancy i s :=
  occupancy_withDrive i s.drive.tail s

/-- A step of a busy core that is presented a word: the word is held, and one busy edge is gone (R51). -/
theorem step_busy_presented {s : State} {e : PortIn} {d : List PortIn} {w : CmdWord} {n : Nat}
    (hd : s.drive = e :: d) (hr : e.rst = false) (hp : e.presented = some w)
    (hh : s.held = none ∨ s.held = some w) (hb : s.busy = n + 1) :
    step s = .next { s with busy := n, drive := d, held := some w } := by
  have hedge : step s = .next (keepPresented e (passBusyEdge (dropEdge s))) := by
    rw [step, State.nextEdge, hd]
    exact edge_of_busy (s := dropEdge s) hr (hp ▸ hh) (by simp [hb])
  rw [hedge]
  congr 1
  apply State.ext <;> simp [hd, hp, hb]

/-- The edges of a busy core to which the host presents one word throughout: nothing but the busy count changes,
and the word is held (R51). -/
theorem run_busy_presented {w : CmdWord} {front rest : List PortIn} {s : State}
    (hd : s.drive = front ++ rest) (hl : front.length = s.busy)
    (he : ∀ e ∈ front, e.rst = false ∧ e.presented = some w) (hh : s.held = none ∨ s.held = some w) :
    Host.Core.run Sys2Proof.core s.busy s =
      .next { s with busy := 0, drive := rest, held := if s.busy = 0 then s.held else some w } := by
  induction front generalizing s with
  | nil =>
    have hb : s.busy = 0 := hl.symm
    have hs : { s with busy := 0, drive := rest, held := if s.busy = 0 then s.held else some w } = s := by
      apply State.ext <;> simp [hb, hd]
    rw [hs, hb, run_zero]
  | cons e front ih =>
    have hb : s.busy = front.length + 1 := hl.symm
    obtain ⟨hr, hp⟩ := he e List.mem_cons_self
    have hrest := ih (s := { s with busy := front.length, drive := front ++ rest, held := some w }) rfl rfl
      (fun e' h => he e' (List.mem_cons_of_mem e h)) (.inr rfl)
    simp only [ite_self] at hrest
    rw [hb, if_neg (Nat.succ_ne_zero _)]
    exact (run_of_step (step_busy_presented hd hr hp hh hb)).trans hrest

/-- An edge at which the host does nothing, a response pending: it has only gone by (R54). -/
theorem step_stalled {s : State} {x : Digest} (d : List PortIn) (hb : s.busy = 0) (hx : s.rsp = some x)
    (hh : s.held = none) : step (withDrive (idleEdge :: d) s) = .next (withDrive d s) := by
  rw [step_withDrive, edge_of_response (s := withDrive d s) rfl (.inl hh) hb hx]
  congr 1
  apply State.ext <;> simp [withDrive, idleEdge, PortIn.presented, hh]

/-- Any number of such edges (R54, R147). -/
theorem run_stalled (n : Nat) {s : State} {x : Digest} (d : List PortIn) (hb : s.busy = 0)
    (hx : s.rsp = some x) (hh : s.held = none) :
    Host.Core.run Sys2Proof.core n (withDrive (List.replicate n idleEdge ++ d) s) = .next (withDrive d s) := by
  induction n with
  | zero => rfl
  | succ n ih => rw [List.replicate_succ, List.cons_append, run_of_step (step_stalled _ hb hx hh), ih]

/-! ### The digest of a FINISH -/

/-- Word `i` of the digest, from the most significant end (R52). -/
theorem extractLsb'_digest_word (h : Hash) {i : Nat} (hi : i < 5) :
    h.digest.extractLsb' (32 * (4 - i)) 32 = [h.h0, h.h1, h.h2, h.h3, h.h4][i] := by
  have hword := extractLsb'_digest h (start := 0) (len := 32) hi (Nat.le_refl _)
  rwa [Nat.zero_add, BitVec.extractLsb'_eq_self] at hword

/-- FINISH on a state that is not consumed responds with the hash words that it leaves (R52, R103). -/
theorem rsp_of_exec_finish_of_not_consumed {s t : State} (hc : s.consumed = false)
    (h : exec .finish s = .next t) : t.rsp = some t.h.digest := by
  obtain ⟨hc', -⟩ | ⟨-, -, rfl⟩ := exec_finish_next_cases h
  · simp [hc] at hc'
  · rw [finishEnd_rsp, finishEnd_h]

end Sys2Proof.Machine

namespace Sys2Proof.Proofs
open Sys2Proof Sys2Proof.Machine

/-- Settles O3: the rows of the opcode map select encodings only, and the words outside the reserved ranges
are the encodings, field by field. -/
theorem decodeEncodeAgree : Obligations.DecodeEncodeAgree :=
  ⟨fun _ _ => decode_eq_ok_iff, legal_encode, fun _ => exists_decode_iff_legal⟩

/-- Settles O4: a word of the ranges is not legal, so it decodes to nothing, and its acceptance is refused. -/
theorem reservedWordsRefused : Obligations.ReservedWordsRefused := by
  refine ⟨fun w s hw hb hx hh hr hv hword => ?_, by decide +kernel⟩
  obtain ⟨r, hd⟩ := decode_error_of_not_legal (not_legal_of_toNat hw)
  rw [step_of_command hb hx hh hr hv hword, acceptCommand_of_error hd]

/-- Settles O8, by induction on the edges for which the core is busy. -/
theorem presentedCommandWaits : Obligations.PresentedCommandWaits := by
  intro s w front rest hd hl he hh
  refine run_busy_presented hd hl (fun e hmem => ?_) hh
  obtain ⟨hr, hv, hw⟩ := he e hmem
  exact ⟨hr, presented_of_valid hv hw⟩

/-- Settles O13, by induction on the edges at which the response waits. -/
theorem hostStallsCore : Obligations.HostStallsCore := by
  intro n s x rest hb hx hh hd
  have hrun := run_stalled n rest hb hx hh
  rw [withDrive_self hd] at hrun
  exact ⟨hrun, by simp [State.cmdReady, hx]⟩

/-- Settles O41: what each command does to the response port, and where the digest holds each hash word. -/
theorem onlyFinishResponds : Obligations.OnlyFinishResponds := by
  refine ⟨fun i s t h => ⟨?_, fun hi => rsp_of_exec_of_ne_finish hi h⟩, fun s t hc h => ?_⟩
  · rintro rfl
    exact rsp_of_exec_finish h
  · have hword {i : Nat} (hi : i < 5) := extractLsb'_digest_word t.h hi
    exact ⟨t.h.digest, rsp_of_exec_finish_of_not_consumed hc h, hword (i := 0) (by decide),
      hword (i := 1) (by decide), hword (i := 2) (by decide), hword (i := 3) (by decide),
      hword (i := 4) (by decide)⟩

/-- Settles O1: the masks read off the fields of an encoding; the counts are over the 1024 words. -/
theorem wordsSelectCommandsByMaskAndMatch : Obligations.WordsSelectCommandsByMaskAndMatch := by
  refine ⟨fun w => ⟨?_, fun d => ?_, ?_⟩, by decide +kernel, by decide +kernel, by decide +kernel⟩
  · rw [decode_eq_ok_iff, and_fullMask]
    rfl
  · rw [decode_eq_ok_iff, and_opMask_eq_iff, ← data_eq_iff]
    exact eq_append_iff
  · rw [decode_eq_ok_iff, and_fullMask]
    rfl

/-- Settles O2: the six words are encodings. -/
theorem decodeReadsWrittenOutWords : Obligations.DecodeReadsWrittenOutWords :=
  ⟨decode_encode .reset, decode_encode (.push 0x61#8), decode_encode (.push 0x00#8),
    decode_encode (.push 0xFF#8), decode_encode (.push 0x80#8), decode_encode .finish⟩

/-- Settles O5: acceptance decodes the word and runs its command. -/
theorem stepRunsDecodedCommand : Obligations.StepRunsDecodedCommand := by
  intro s w i hb hx hh hr hv hw hd
  rw [step_of_command hb hx hh hr hv hw, acceptCommand_of_decode hd, occupancy_dropEdge]
  rfl

/-- Settles O7: each output port is a condition on `rst`, the busy count and the pending response. -/
theorem outputPortsFollowState : Obligations.OutputPortsFollowState := by
  intro s
  refine ⟨rfl, rfl, ?_, ?_, fun x hb hx => ?_⟩
  · simp [State.ports, State.cmdReady]
  · simp [State.ports, State.rspValid, Option.isSome_iff_exists]
  · simp [State.ports, State.rspDigest, State.rspValid, hb, hx]

/-- Settles O9: with a response pending, an edge either takes it or leaves all but the presented word alone. -/
theorem responseHeldUntilTaken : Obligations.ResponseHeldUntilTaken := by
  intro s x hb hx hr hh
  rw [step_of_response hb hx hh hr]
  exact ⟨fun hready => by rw [hready]; rfl, fun hready => by rw [hready]; rfl⟩

/-- Settles O11: a word withdrawn or changed is not the one presented. -/
theorem unstableCommandRefused : Obligations.UnstableCommandRefused := by
  intro s w hh hr hchanged
  refine edge_of_unstable (s := dropEdge s) hr hh fun hp => ?_
  obtain ⟨hv, hw⟩ := presented_eq_some hp
  simp [hv, hw] at hchanged

/-- Settles O47: the expansions are the lists that R56 gives, and a PUSH stands for each byte. -/
theorem pseudoCommandsExpand : Obligations.PseudoCommandsExpand := by
  intro data s
  exact ⟨rfl, List.length_map .., rfl, rfl, rfl, rfl, rfl⟩

end Sys2Proof.Proofs

/-! PROOFS. The family of 40_init_reset.md: the two resets, the values that they give, and that a host cannot
tell them apart. First what a fresh state is to the host; then the statements. -/

namespace Sys2Proof.Machine

/-! ### Fresh states -/

/-- The state after hardware reset is fresh (R24, R25). -/
theorem fresh_reset : State.reset.Fresh := ⟨rfl, rfl, rfl, rfl⟩

/-- RESET makes every state fresh (R24, R61). -/
theorem fresh_endDraw_toInitial (s : State) : (endDraw (toInitial s)).Fresh where
  hash := by simp
  filled := by simp
  nblk := by simp
  notConsumed := by simp

/-- A hardware reset makes every state fresh (R24, R60). -/
theorem fresh_hardwareReset (s : State) : (hardwareReset s).Fresh where
  hash := by simp
  filled := by simp
  nblk := by simp
  notConsumed := by simp

/-- A host cannot tell two fresh states apart: no byte of their buffers is valid (R24, R39). -/
theorem State.Fresh.alike {s t : State} (hs : s.Fresh) (ht : t.Fresh) : s.Alike t where
  hash := hs.hash.trans ht.hash.symm
  filled := hs.filled.trans ht.filled.symm
  nblk := hs.nblk.trans ht.nblk.symm
  notConsumed := ⟨hs.notConsumed, ht.notConsumed⟩
  validBytes := by simp [hs.filled]

/-- Two fresh states track each other when no response waits. -/
theorem State.Fresh.tracks {s t : State} (hs : s.Fresh) (ht : t.Fresh) (hsr : s.rsp = none)
    (htr : t.rsp = none) : Tracks false s t :=
  (hs.alike ht).tracks (by simp [hs.filled]) hsr htr

/-- A sequence that begins with RESET, when no response waits, is the rest of it from the state that RESET
leaves (R41, R61). -/
theorem runOps_reset_cons {s : State} (h : s.rsp = none) (p : List HostOp) :
    runOps (.cmd .reset :: p) s = runOps p (endDraw (toInitial s)) := by
  rw [runOps, runOp_of_exec (exec_reset s), takePending_of_none (by simpa using h)]

end Sys2Proof.Machine

namespace Sys2Proof.Proofs
open Sys2Proof Sys2Proof.Machine

/-- Settles O21: the state that RESET leaves and the state after hardware reset are both fresh, so they track
each other over `p`; RESET itself delivers nothing. -/
theorem resetEquivalence : Obligations.ResetEquivalence := by
  intro s p hr hp
  have htracks : Tracks false (endDraw (toInitial s)) State.reset :=
    (fresh_endDraw_toInitial s).tracks fresh_reset (by simpa using hr) rfl
  obtain ⟨-, t, u, xs, ht, hu, htx, hux, -⟩ := htracks.runOps hp
  have hxs : u.delivered = xs := hux
  refine ⟨t, u, (runOps_reset_cons hr p).trans ht, hu, ?_⟩
  rw [htx, hxs, endDraw_delivered, toInitial_delivered]

/-- Settles O6: an edge with `rst` is a hardware reset, whatever else the core was doing; the state that it
leaves is fresh and idle. -/
theorem hardwareResetStep : Obligations.HardwareResetStep := by
  intro s hrst
  obtain ⟨hh, hfilled, hnblk, hconsumed⟩ := fresh_hardwareReset (dropEdge s)
  refine ⟨hardwareReset (dropEdge s), edge_of_rst hrst, hfilled, hnblk, hh, hconsumed, ?_⟩
  simp [State.cmdReady, State.rspValid]

/-- Settles O20: RESET leaves a fresh state; it writes neither the buffer nor the response port. -/
theorem resetGivesInitialValues : Obligations.ResetGivesInitialValues := by
  intro s
  obtain ⟨hh, hfilled, hnblk, hconsumed⟩ := fresh_endDraw_toInitial s
  exact ⟨endDraw (toInitial s), exec_reset s, hfilled, hnblk, hh, hconsumed, by simp, by simp,
    exec_sameHostSide (exec_reset s)⟩

end Sys2Proof.Proofs

/-! PROOFS. The family of 41_update.md: one PUSH, a sequence of PUSH commands, the source's block-copy UPDATE, and
pieces of a message. First the state that a PUSH leaves, as a function of the state; then what any number of them
leave; then the block copy, which is compared with them up to the scratch registers; then the statements. -/

namespace Sys2Proof.Machine

/-! ### One PUSH -/

/-- The first half of a PUSH: store at FILLED and count up (R65). -/
def storeByte (d : Byte) (s : State) : State := bumpFilled (putByte s.filled.toNat d s)

/-- The state that `PUSH d` leaves when it is not consumed and FILLED is in range (R65); `exec_push_eq_absorbByte`
ties it to the command. -/
def absorbByte (d : Byte) (s : State) : State :=
  if s.filled.toNat < 63 then storeByte d s else releaseScratch (clearFilled (compress (storeByte d s)))

/-- A byte that does not fill the block is stored, and that is all (R65). -/
theorem absorbByte_of_lt {s : State} (d : Byte) (h : s.filled.toNat < 63) : absorbByte d s = storeByte d s :=
  if_pos h

/-- A byte that fills the block has it compressed (R65, R71). -/
theorem absorbByte_of_full {s : State} (d : Byte) (h : s.filled.toNat = 63) :
    absorbByte d s = releaseScratch (clearFilled (compress (storeByte d s))) :=
  if_neg (by omega)

/-- PUSH, as R140 allows it, is `absorbByte`. -/
theorem exec_push_eq_absorbByte {s : State} (d : Byte) (hc : s.consumed = false) (hf : s.filled.toNat < 64) :
    exec (.push d) s = .next (absorbByte d s) := by
  by_cases h : s.filled.toNat < 63
  · rw [exec_push_of_lt d hc h, absorbByte_of_lt d h, storeByte]
  · have h63 : s.filled.toNat = 63 := by omega
    rw [exec_push_of_full d hc (by bv_omega), absorbByte_of_full d h63, storeByte, h63]

/-- Reading after the store (R65). -/
theorem byteAt_storeByte (d : Byte) (s : State) (a : Nat) :
    (storeByte d s).byteAt a = if a = s.filled.toNat then d else s.byteAt a := by
  rw [storeByte, byteAt_bumpFilled, byteAt_putByte]

/-- The count after the store (R65). -/
theorem filled_storeByte {s : State} (d : Byte) (hf : s.filled.toNat < 64) :
    (storeByte d s).filled.toNat = s.filled.toNat + 1 := by
  rw [storeByte, bumpFilled_filled, putByte_filled, toNat_filled_succ hf]

@[simp] theorem storeByte_h (d : Byte) (s : State) : (storeByte d s).h = s.h := by simp [storeByte]
@[simp] theorem storeByte_nblk (d : Byte) (s : State) : (storeByte d s).nblk = s.nblk := by simp [storeByte]
@[simp] theorem storeByte_scratch (d : Byte) (s : State) : (storeByte d s).scratch = s.scratch := by simp [storeByte]
@[simp] theorem storeByte_lenreg (d : Byte) (s : State) : (storeByte d s).lenreg = s.lenreg := by simp [storeByte]
@[simp] theorem storeByte_consumed (d : Byte) (s : State) : (storeByte d s).consumed = s.consumed := by
  simp [storeByte]

/-- A PUSH changes the byte at FILLED and no other, as COMPRESS leaves the buffer alone (R65, R75). -/
theorem byteAt_absorbByte (d : Byte) (s : State) (a : Nat) :
    (absorbByte d s).byteAt a = if a = s.filled.toNat then d else s.byteAt a := by
  rw [← byteAt_storeByte, absorbByte]
  split <;> simp

/-- FILLED counts modulo the size of the block (R65). -/
theorem filled_absorbByte {s : State} (d : Byte) (hf : s.filled.toNat < 64) :
    (absorbByte d s).filled.toNat = (s.filled.toNat + 1) % 64 := by
  by_cases h : s.filled.toNat < 63
  · rw [absorbByte_of_lt d h, filled_storeByte d hf, Nat.mod_eq_of_lt (by omega)]
  · have h63 : s.filled.toNat = 63 := by omega
    rw [absorbByte_of_full d h63, h63]
    simp

/-- NBLK counts the blocks that FILLED completes (R65, R86). -/
theorem nblk_absorbByte {s : State} (d : Byte) (hf : s.filled.toNat < 64) :
    (absorbByte d s).nblk = s.nblk + BitVec.ofNat 64 ((s.filled.toNat + 1) / 64) := by
  by_cases h : s.filled.toNat < 63
  · rw [absorbByte_of_lt d h, storeByte_nblk, Nat.div_eq_of_lt (by omega), BitVec.add_zero]
  · have h63 : s.filled.toNat = 63 := by omega
    rw [absorbByte_of_full d h63, h63]
    simp

/-- H stays while the block is not full (R65). -/
theorem h_absorbByte_of_lt {s : State} (d : Byte) (h : s.filled.toNat < 63) : (absorbByte d s).h = s.h := by
  rw [absorbByte_of_lt d h, storeByte_h]

/-- A full block goes into H as it then stands in the buffer (R65, R88). -/
theorem h_absorbByte_of_full {s : State} (d : Byte) (h : s.filled.toNat = 63) :
    (absorbByte d s).h = compressHash s.h (absorbByte d s).block := by
  have hblock : (absorbByte d s).block = (storeByte d s).block := by
    funext a
    rw [State.block, State.block, byteAt_absorbByte, byteAt_storeByte]
  rw [hblock, absorbByte_of_full d h, releaseScratch_h, clearFilled_h, compress_h_eq_compressHash, storeByte_h]

@[simp] theorem absorbByte_lenreg (d : Byte) (s : State) : (absorbByte d s).lenreg = s.lenreg := by
  rw [absorbByte]
  split <;> simp

@[simp] theorem absorbByte_consumed (d : Byte) (s : State) : (absorbByte d s).consumed = s.consumed := by
  rw [absorbByte]
  split <;> simp

/-! ### Any number of PUSH commands -/

/-- What the commands leave that feed the bytes one after the other; `runOps_pushes` ties it to them. -/
def absorbBytes (data : List Byte) (s : State) : State := data.foldl (fun s d => absorbByte d s) s

@[simp] theorem absorbBytes_nil (s : State) : absorbBytes [] s = s := rfl

@[simp] theorem absorbBytes_cons (d : Byte) (data : List Byte) (s : State) :
    absorbBytes (d :: data) s = absorbBytes data (absorbByte d s) := rfl

/-- Bytes in two parts, one after the other. -/
theorem absorbBytes_append (xs ys : List Byte) (s : State) :
    absorbBytes (xs ++ ys) s = absorbBytes ys (absorbBytes xs s) := List.foldl_append

/-- One more byte at the end. -/
theorem absorbBytes_concat (data : List Byte) (d : Byte) (s : State) :
    absorbBytes (data ++ [d]) s = absorbByte d (absorbBytes data s) := absorbBytes_append data [d] s

@[simp] theorem absorbBytes_consumed (data : List Byte) (s : State) :
    (absorbBytes data s).consumed = s.consumed :=
  foldl_keeps State.consumed (fun s d => absorbByte d s) (fun s d => absorbByte_consumed d s) data s

/-- A command that keeps the host's side after one that does keeps it too (R27). -/
theorem State.SameHostSide.trans {s t u : State} (h : s.SameHostSide t) (h' : t.SameHostSide u) :
    s.SameHostSide u where
  busy := h'.busy.trans h.busy
  latency := h'.latency.trans h.latency
  drive := h'.drive.trans h.drive
  held := h'.held.trans h.held
  delivered := h'.delivered.trans h.delivered

/-- A state has its own host side. -/
theorem State.SameHostSide.refl (s : State) : s.SameHostSide s := ⟨rfl, rfl, rfl, rfl, rfl⟩

section
variable {s : State}

/-- FILLED stays in range (R14). -/
theorem filled_absorbByte_lt (d : Byte) (hf : s.filled.toNat < 64) : (absorbByte d s).filled.toNat < 64 := by
  rw [filled_absorbByte d hf]
  exact Nat.mod_lt _ (by decide)

/-- FILLED after any number of bytes (R70). -/
theorem filled_absorbBytes (data : List Byte) (hf : s.filled.toNat < 64) :
    (absorbBytes data s).filled.toNat = (s.filled.toNat + data.length) % 64 := by
  induction data generalizing s with
  | nil => exact (Nat.mod_eq_of_lt hf).symm
  | cons d data ih =>
    rw [absorbBytes_cons, ih (filled_absorbByte_lt d hf), filled_absorbByte d hf, List.length_cons]
    omega

/-- NBLK after any number of bytes: the blocks completed, modulo 2^64 (R70, R86). -/
theorem nblk_absorbBytes (data : List Byte) (hf : s.filled.toNat < 64) :
    (absorbBytes data s).nblk = s.nblk + BitVec.ofNat 64 ((s.filled.toNat + data.length) / 64) := by
  induction data generalizing s with
  | nil => rw [absorbBytes_nil, List.length_nil, Nat.add_zero, Nat.div_eq_of_lt hf, BitVec.add_zero]
  | cons d data ih =>
    rw [absorbBytes_cons, ih (filled_absorbByte_lt d hf), filled_absorbByte d hf, nblk_absorbByte d hf,
      BitVec.add_assoc, ← BitVec.ofNat_add, List.length_cons]
    congr 2
    omega

/-- The commands that feed the bytes complete and touch neither the response port nor the host's side (R41,
R65, R27). -/
theorem runOps_pushes (data : List Byte) (hc : s.consumed = false) (hf : s.filled.toNat < 64)
    (hr : s.rsp = none) :
    runOps (pushes data) s = .next (absorbBytes data s) ∧ (absorbBytes data s).rsp = none ∧
      s.SameHostSide (absorbBytes data s) := by
  induction data generalizing s with
  | nil => exact ⟨rfl, hr, .refl s⟩
  | cons d data ih =>
    have hexec := exec_push_eq_absorbByte d hc hf
    have hrsp : (absorbByte d s).rsp = none := (rsp_of_exec_of_ne_finish (by simp) hexec).trans hr
    obtain ⟨hrun, hrsp', hside⟩ := ih (by simpa using hc) (filled_absorbByte_lt d hf) hrsp
    refine ⟨?_, hrsp', (exec_sameHostSide hexec).trans hside⟩
    rw [pushes, List.map_cons, runOps, runOp_of_exec hexec, takePending_of_none hrsp]
    exact hrun

end

/-! ### A message pushed on an empty buffer -/

/-- The buffer after a message that began at index 0: at each index the last byte of the message that falls there,
or the byte that was there before (R14c, R70). -/
def bufferAfter (s : State) (data : List Byte) : Block := fun i =>
  if i < data.length then data.getD (64 * ((data.length - 1 - i) / 64) + i) 0#8 else s.byteAt i

/-- One more byte replaces the byte at the place of its index in the block. -/
theorem bufferAfter_concat (s : State) (data : List Byte) (d : Byte) {i : Nat} (hi : i < 64) :
    bufferAfter s (data ++ [d]) i = if i = data.length % 64 then d else bufferAfter s data i := by
  simp only [bufferAfter, List.length_append, List.length_singleton, Nat.add_sub_cancel]
  by_cases h : i = data.length % 64
  · rw [if_pos (by omega), if_pos h, show 64 * ((data.length - i) / 64) + i = data.length by omega]
    simp [List.getD_eq_getElem?_getD]
  · rw [if_neg h]
    by_cases hlt : i < data.length
    · rw [if_pos (by omega), if_pos hlt,
        show (data.length - i) / 64 = (data.length - 1 - i) / 64 by omega, List.getD_append _ _ _ _ (by omega)]
    · rw [if_neg (by omega), if_neg hlt]

/-- The valid bytes are the last ones of the message (R14). -/
theorem bufferAfter_of_lt (s : State) {data : List Byte} {i : Nat} (h : i < data.length % 64) :
    bufferAfter s data i = data.getD (64 * (data.length / 64) + i) 0#8 := by
  rw [bufferAfter, if_pos (by omega), show (data.length - 1 - i) / 64 = data.length / 64 by omega]

/-- The others are stale: those of the block before, or what was there (R14c). -/
theorem bufferAfter_of_ge (s : State) {data : List Byte} {i : Nat} (h : data.length % 64 ≤ i) (hi : i < 64) :
    bufferAfter s data i =
      if data.length < 64 then s.byteAt i else data.getD (64 * (data.length / 64 - 1) + i) 0#8 := by
  rw [bufferAfter]
  by_cases hn : data.length < 64
  · rw [if_neg (by omega), if_pos hn]
  · rw [if_pos (by omega), if_neg hn, show (data.length - 1 - i) / 64 = data.length / 64 - 1 by omega]

/-- When the message ends a block, the buffer holds that block. -/
theorem bufferAfter_of_whole (s : State) {data : List Byte} {n : Nat} (h : data.length = 64 * (n + 1)) {i : Nat}
    (hi : i < 64) : bufferAfter s data i = blockOf data n i := by
  rw [bufferAfter_of_ge s (by omega) hi, if_neg (by omega), blockOf,
    show data.length / 64 - 1 = n by omega]

section
variable {s : State} (hf : s.filled = 0#7)
include hf

/-- FILLED after a message (R70). -/
theorem filled_absorbBytes_of_empty (data : List Byte) :
    (absorbBytes data s).filled.toNat = data.length % 64 := by
  simpa [hf] using filled_absorbBytes (s := s) data (by simp [hf])

/-- The buffer after a message (R70). -/
theorem byteAt_absorbBytes_of_empty (data : List Byte) {i : Nat} (hi : i < 64) :
    (absorbBytes data s).byteAt i = bufferAfter s data i := by
  induction data using List.reverseRecOn with
  | nil => rfl
  | append_singleton data d ih =>
    rw [absorbBytes_concat, byteAt_absorbByte, filled_absorbBytes_of_empty hf, ih, bufferAfter_concat s data d hi]

/-- H after a message: its whole blocks in order (R70). -/
theorem h_absorbBytes_of_empty (data : List Byte) :
    (absorbBytes data s).h = chain data s.h (data.length / 64) := by
  induction data using List.reverseRecOn with
  | nil => rfl
  | append_singleton data d ih =>
    have hfilled := filled_absorbBytes_of_empty hf data
    have hlen : (data ++ [d]).length = data.length + 1 := List.length_append
    have hchain : chain (data ++ [d]) s.h (data.length / 64) = (absorbBytes data s).h := by
      rw [chain_append _ _ _ (by omega), ih]
    by_cases h63 : data.length % 64 = 63
    · have hblock : ∀ i, i < 64 →
          (absorbBytes (data ++ [d]) s).block i = blockOf (data ++ [d]) (data.length / 64) i := fun i hi => by
        rw [State.block, byteAt_absorbBytes_of_empty hf _ hi,
          bufferAfter_of_whole s (n := data.length / 64) (by omega) hi]
      rw [hlen, show (data.length + 1) / 64 = data.length / 64 + 1 by omega, chain, hchain,
        ← compressHash_congr hblock, absorbBytes_concat, h_absorbByte_of_full d (hfilled.trans h63)]
    · rw [hlen, show (data.length + 1) / 64 = data.length / 64 by omega, hchain, absorbBytes_concat,
        h_absorbByte_of_lt d (by omega)]

end

/-! ### Block copy -/

/-- No byte to copy. -/
theorem copyRest_nil (s : State) : copyRest [] s = s := by
  apply State.ext <;> simp [copyRest, Memory.writeBytes]

/-- A copy of bytes stores them one after the other (R67). -/
theorem copyRest_cons (d : Byte) (data : List Byte) {s : State} (hf : s.filled.toNat < 64) :
    copyRest (d :: data) s = copyRest data (storeByte d s) := by
  have hfilled : (storeByte d s).filled.toNat = s.filled.toNat + 1 := filled_storeByte d hf
  have hsum : s.filled + BitVec.ofNat 7 (data.length + 1) = s.filled + 1#7 + BitVec.ofNat 7 data.length := by
    rw [BitVec.add_assoc, ← BitVec.ofNat_add, Nat.add_comm 1]
  apply State.ext
  case buf => rw [copyRest_buf, copyRest_buf, hfilled, storeByte, bumpFilled_buf, putByte_buf, Memory.writeBytes]
  case filled => simpa [storeByte] using hsum
  all_goals simp [storeByte]

/-- Bytes that do not reach the end of the block are copied (R67, R68). -/
theorem absorbBytes_eq_copyRest {data : List Byte} {s : State} (h : s.filled.toNat + data.length < 64) :
    absorbBytes data s = copyRest data s := by
  induction data generalizing s with
  | nil => rw [absorbBytes_nil, copyRest_nil]
  | cons d data ih =>
    rw [List.length_cons] at h
    have hf : s.filled.toNat < 64 := by omega
    have hstored : (storeByte d s).filled.toNat + data.length < 64 := by rw [filled_storeByte d hf]; omega
    rw [absorbBytes_cons, absorbByte_of_lt d (by omega), ih hstored, copyRest_cons d data hf]

/-- Bytes that just reach the end of the block are copied, and the block is compressed (R67, R68). -/
theorem absorbBytes_eq_compress {data : List Byte} {s : State} (hf : s.filled.toNat < 64)
    (h : s.filled.toNat + data.length = 64) :
    absorbBytes data s = releaseScratch (clearFilled (compress (copyRest data s))) := by
  induction data generalizing s with
  | nil => exact absurd h (Nat.ne_of_lt hf)
  | cons d data ih =>
    rw [List.length_cons] at h
    rw [absorbBytes_cons, copyRest_cons d data hf]
    by_cases h63 : s.filled.toNat = 63
    · obtain rfl : data = [] := List.eq_nil_of_length_eq_zero (by omega)
      rw [absorbBytes_nil, copyRest_nil, absorbByte_of_full d h63]
    · have hstored := filled_storeByte d hf
      rw [absorbByte_of_lt d (by omega), ih (by omega) (by omega)]

/-- Two states alike whose stale bytes are the same as well: what R68 and R69 compare. The scratch registers may
differ (log 24). -/
structure State.AlikeThroughout (s t : State) : Prop where
  alike : s.Alike t
  bytes : ∀ a, s.byteAt a = t.byteAt a

section
variable {s t u : State}

/-- Where all the bytes are the same, the valid ones are. -/
theorem State.AlikeThroughout.of_bytes (hash : s.h = t.h) (filled : s.filled = t.filled) (nblk : s.nblk = t.nblk)
    (notConsumed : s.consumed = false ∧ t.consumed = false) (bytes : ∀ a, s.byteAt a = t.byteAt a) :
    s.AlikeThroughout t :=
  ⟨⟨hash, filled, nblk, notConsumed, fun i _ => bytes i⟩, bytes⟩

/-- A state that is not consumed is alike to itself. -/
theorem State.AlikeThroughout.refl (hc : s.consumed = false) : s.AlikeThroughout s :=
  .of_bytes rfl rfl rfl ⟨hc, hc⟩ fun _ => rfl

/-- The first and the last of three states that are alike. -/
theorem State.AlikeThroughout.trans (h : s.AlikeThroughout t) (h' : t.AlikeThroughout u) :
    s.AlikeThroughout u :=
  .of_bytes (h.alike.hash.trans h'.alike.hash) (h.alike.filled.trans h'.alike.filled)
    (h.alike.nblk.trans h'.alike.nblk) ⟨h.alike.notConsumed.1, h'.alike.notConsumed.2⟩
    fun a => (h.bytes a).trans (h'.bytes a)

/-- The same two states, the other way round. -/
theorem State.AlikeThroughout.symm (h : s.AlikeThroughout t) : t.AlikeThroughout s :=
  .of_bytes h.alike.hash.symm h.alike.filled.symm h.alike.nblk.symm h.alike.notConsumed.symm
    fun a => (h.bytes a).symm

/-- A PUSH keeps two states alike (R65). -/
theorem State.AlikeThroughout.absorbByte (h : s.AlikeThroughout t) (hf : s.filled.toNat < 64) (d : Byte) :
    (absorbByte d s).AlikeThroughout (absorbByte d t) := by
  obtain ⟨s', t', hs, ht, halike, -⟩ := h.alike.exec_push hf d
  rw [exec_push_eq_absorbByte d h.alike.notConsumed.1 hf] at hs
  rw [exec_push_eq_absorbByte d h.alike.notConsumed.2 (h.alike.filled ▸ hf)] at ht
  cases hs
  cases ht
  refine ⟨halike, fun a => ?_⟩
  rw [byteAt_absorbByte, byteAt_absorbByte, h.alike.filled, h.bytes]

/-- Any number of PUSH commands keep two states alike. -/
theorem State.AlikeThroughout.absorbBytes (h : s.AlikeThroughout t) (hf : s.filled.toNat < 64)
    (data : List Byte) : (absorbBytes data s).AlikeThroughout (absorbBytes data t) := by
  induction data generalizing s t with
  | nil => exact h
  | cons d data ih => exact ih (h.absorbByte hf d) (filled_absorbByte_lt d hf)

/-- One turn of the loop of R67 leaves what the PUSH commands for its bytes leave, but for the scratch registers. -/
theorem absorbBytes_alike_copyBlock {data : List Byte} (hc : s.consumed = false) (hf : s.filled.toNat < 64)
    (h : s.filled.toNat + data.length = 64) :
    (absorbBytes data s).AlikeThroughout (clearFilled (compress (copyBytes s.filled.toNat data s))) := by
  have hbytes : ∀ a, (copyRest data s).byteAt a = (copyBytes s.filled.toNat data s).byteAt a :=
    byteAt_congr (by simp) (by simp)
  have hhash : (compress (copyRest data s)).h = (compress (copyBytes s.filled.toNat data s)).h :=
    compress_h_congr (by simp) fun i _ => hbytes i
  rw [absorbBytes_eq_compress hf h]
  refine .of_bytes ?_ (by simp) (by simp) (by simp [hc]) (by simpa using hbytes)
  rw [releaseScratch_h, clearFilled_h, clearFilled_h, hhash]

/-- The loop of R67, turn by turn: each takes at least one byte, so the turns suffice. -/
theorem absorbBytes_alike_updateLoop {turns : Nat} {data : List Byte} (hturns : data.length < turns)
    (hc : s.consumed = false) (hf : s.filled.toNat < 64) :
    (absorbBytes data s).AlikeThroughout (updateLoop turns data s) := by
  induction turns generalizing data s with
  | zero => exact absurd hturns (Nat.not_lt_zero _)
  | succ turns ih =>
    rw [updateLoop, blockSize]
    split
    · next hfree =>
      have hblock := absorbBytes_alike_copyBlock (data := data.take (64 - s.filled.toNat)) hc hf
        (by rw [List.length_take]; omega)
      have hrest := ih (data := data.drop (64 - s.filled.toNat)) (by rw [List.length_drop]; omega)
        hblock.alike.notConsumed.2 (by simp)
      rw [← List.take_append_drop (64 - s.filled.toNat) data, absorbBytes_append, List.take_append_drop]
      exact (hblock.absorbBytes (hblock.alike.filled ▸ by simp) _).trans hrest
    · rw [absorbBytes_eq_copyRest (by omega)]
      exact .refl (by simpa using hc)

/-- Block copy and PUSH commands (R68). -/
theorem absorbBytes_alike_updateByBlocks (data : List Byte) (hc : s.consumed = false)
    (hf : s.filled.toNat < 64) : (absorbBytes data s).AlikeThroughout (updateByBlocks data s) :=
  absorbBytes_alike_updateLoop (Nat.lt_succ_self _) hc hf

/-- FILLED stays in range over a block-copy UPDATE (R14). -/
theorem filled_updateByBlocks_lt (data : List Byte) (hc : s.consumed = false) (hf : s.filled.toNat < 64) :
    (updateByBlocks data s).filled.toNat < 64 := by
  rw [← (absorbBytes_alike_updateByBlocks data hc hf).alike.filled, filled_absorbBytes data hf]
  exact Nat.mod_lt _ (by decide)

/-- Pieces fed by block copy leave what the PUSH commands for all their bytes leave (R69). -/
theorem absorbBytes_flatten_alike (pieces : List (List Byte)) (hc : s.consumed = false)
    (hf : s.filled.toNat < 64) :
    (absorbBytes pieces.flatten s).AlikeThroughout
      (pieces.foldl (fun s piece => updateByBlocks piece s) s) := by
  induction pieces generalizing s with
  | nil => exact .refl hc
  | cons piece pieces ih =>
    have hpiece := absorbBytes_alike_updateByBlocks piece hc hf
    have hf' := filled_updateByBlocks_lt piece hc hf
    rw [List.flatten_cons, absorbBytes_append, List.foldl_cons]
    exact (hpiece.absorbBytes (hpiece.alike.filled ▸ hf') _).trans (ih hpiece.alike.notConsumed.2 hf')

end

end Sys2Proof.Machine

namespace Sys2Proof.Proofs
open Sys2Proof Sys2Proof.Machine

/-- Settles O22: a PUSH is `absorbByte`, whose two cases are FILLED below 63 and FILLED at 63. -/
theorem pushAbsorbsByte : Obligations.PushAbsorbsByte := by
  intro s d
  refine ⟨fun hc hf => ?_, fun hc => ⟨_, exec_push_of_consumed d hc⟩⟩
  have hexec := exec_push_eq_absorbByte d hc hf
  refine ⟨absorbByte d s, hexec, ?_, fun a ha => ?_, fun h => ?_, fun h => ?_, absorbByte_lenreg d s,
    (consumed_of_exec_push hexec).trans hc, rsp_of_exec_of_ne_finish (by simp) hexec, exec_sameHostSide hexec⟩
  · rw [byteAt_absorbByte, if_pos rfl]
  · rw [byteAt_absorbByte, if_neg ha]
  · rw [absorbByte_of_lt d h]
    exact ⟨filled_storeByte d hf, storeByte_h d s, storeByte_nblk d s, storeByte_scratch d s⟩
  · refine ⟨?_, h_absorbByte_of_full d h, ?_⟩
    · rw [filled_absorbByte d hf, h]
    · rw [nblk_absorbByte d hf, h, BitVec.toNat_add]
      rfl

/-- Settles O23: FILLED and NBLK are the two digits of the count of bytes, in base 64, and it counts up. -/
theorem pushAddsEightBits : Obligations.PushAddsEightBits := by
  intro s d hc hf hn
  refine ⟨absorbByte d s, exec_push_eq_absorbByte d hc hf, filled_absorbByte_lt d hf, ?_⟩
  rw [filled_absorbByte d hf, nblk_absorbByte d hf, BitVec.toNat_add, BitVec.toNat_ofNat]
  omega

/-- Settles O24: FILLED, NBLK, H and the buffer after a message, on the empty buffer of a fresh state. -/
theorem absorbedMessage : Obligations.AbsorbedMessage := by
  intro s data hs hr
  obtain ⟨hiv, hfilled, hnblk, hc⟩ := hs
  have hf : s.filled.toNat < 64 := by simp [hfilled]
  obtain ⟨hrun, hrsp, hside⟩ := runOps_pushes data hc hf hr
  refine ⟨absorbBytes data s, hrun, (absorbBytes_consumed data s).trans hc,
    filled_absorbBytes_of_empty hfilled data, ?_, ?_, fun i hi => ?_, fun i hi hi' => ?_, hrsp, hside⟩
  · simpa [hfilled, hnblk] using nblk_absorbBytes data hf
  · rw [h_absorbBytes_of_empty hfilled, hiv]
  · rw [byteAt_absorbBytes_of_empty hfilled data (by omega), bufferAfter_of_lt s hi]
  · rw [byteAt_absorbBytes_of_empty hfilled data hi', bufferAfter_of_ge s hi hi']

/-- Settles O25: turn by turn the loop of R67 leaves what the PUSH commands for its bytes leave. -/
theorem blockCopyUpdateEqualsPushes : Obligations.BlockCopyUpdateEqualsPushes := by
  intro s data hc hf hr
  obtain ⟨hrun, -, -⟩ := runOps_pushes data hc hf hr
  obtain ⟨⟨hhash, hfilled, hnblk, ⟨hconsumed, -⟩, -⟩, hbytes⟩ := absorbBytes_alike_updateByBlocks data hc hf
  exact ⟨absorbBytes data s, hrun, hhash, hnblk, hfilled, hconsumed, hbytes⟩

/-- Settles O26: the pieces and the whole message both leave what the PUSH commands for the bytes leave. -/
theorem chunkingInvariance : Obligations.ChunkingInvariance := by
  intro s pieces hc hf t u
  have ht : (absorbBytes pieces.flatten s).AlikeThroughout t := absorbBytes_flatten_alike pieces hc hf
  have hu : (absorbBytes pieces.flatten s).AlikeThroughout u := absorbBytes_alike_updateByBlocks _ hc hf
  have htu : t.AlikeThroughout u := ht.symm.trans hu
  refine ⟨htu.alike.hash, htu.alike.nblk, htu.alike.filled, htu.bytes, htu.alike.exec_finish ?_⟩
  rw [htu.alike.filled]
  exact filled_updateByBlocks_lt _ hc hf

end Sys2Proof.Proofs

/-! PROOFS. The family of 42_compress.md: the functions of the datapath, the loading of a block, the schedule, the
rounds, and COMPRESS as a whole. First the functions on words, bit by bit or as numbers; then the schedule over any
sixteen words, which are the words of a block; then a round and what several rounds do to the pipeline; then the
statements. -/

namespace Sys2Proof.Machine

/-! ### Functions on words -/

/-- Bit `i` moves up by `n`, around the end of the word (R76). -/
theorem getLsbD_rotl32_moved (x : Word) {n i : Nat} (hn : n ≤ 31) (hi : i < 32) :
    (rotl32 x n).getLsbD ((i + n) % 32) = x.getLsbD i := by
  rw [getLsbD_rotl32 x (by omega) (Nat.mod_lt _ (by decide))]
  by_cases h : i + n < 32
  · rw [Nat.mod_eq_of_lt h, if_neg (by omega), Nat.add_sub_cancel]
  · have hwrap : (i + n) % 32 = i + n - 32 := by omega
    rw [hwrap, if_pos (by omega)]
    congr 1
    omega

/-- Rotation by any amount distributes over exclusive or (R76). -/
theorem rotl32_xor (x y : Word) {n : Nat} (hn : n ≤ 32) : rotl32 (x ^^^ y) n = rotl32 x n ^^^ rotl32 y n := by
  refine BitVec.eq_of_getLsbD_eq fun i hi => ?_
  simp only [BitVec.getLsbD_xor, getLsbD_rotl32 _ hn hi]
  split <;> rfl

/-- Addition on the datapath, as numbers (R77). -/
theorem toNat_add32 (x y : Word) : (add32 x y).toNat = (x.toNat + y.toNat) % 2 ^ 32 := BitVec.toNat_add x y

/-- The groups of twenty rounds, by their limits (R81). -/
theorem roundGroup_eq (t : Nat) :
    roundGroup t = if t < 20 then .g0 else if t < 40 then .g1 else if t < 60 then .g2 else .g3 := by
  unfold roundGroup
  split
  case h_1 h => rw [if_pos (by omega)]
  case h_2 h => rw [if_neg (by omega), if_pos (by omega)]
  case h_3 h => rw [if_neg (by omega), if_neg (by omega), if_pos (by omega)]
  case h_4 h0 h1 h2 =>
    have hge : 60 ≤ t := by
      have hq : t / 20 ≠ 0 ∧ t / 20 ≠ 1 ∧ t / 20 ≠ 2 := ⟨h0, h1, h2⟩
      omega
    rw [if_neg (by omega), if_neg (by omega), if_neg (by omega)]

/-- Choose, bit by bit (R81). -/
theorem getLsbD_choose (b c d : Word) {i : Nat} (hi : i < 32) :
    (choose b c d).getLsbD i = if b.getLsbD i then c.getLsbD i else d.getLsbD i := by
  simp only [choose, BitVec.getLsbD_or, BitVec.getLsbD_and, BitVec.getLsbD_not, hi]
  cases b.getLsbD i <;> simp

/-- Parity, bit by bit (R81). -/
theorem getLsbD_parity (b c d : Word) (i : Nat) :
    (parity b c d).getLsbD i = ((b.getLsbD i ^^ c.getLsbD i) ^^ d.getLsbD i) := by
  simp only [parity, BitVec.getLsbD_xor]

/-- Majority, bit by bit (R81). -/
theorem getLsbD_majority (b c d : Word) (i : Nat) :
    (majority b c d).getLsbD i =
      (b.getLsbD i && c.getLsbD i || b.getLsbD i && d.getLsbD i || c.getLsbD i && d.getLsbD i) := by
  simp only [majority, BitVec.getLsbD_or, BitVec.getLsbD_and]

/-- A byte appended at the low end, as numbers. -/
theorem toNat_append_byte {w : Nat} (x : BitVec w) (b : Byte) : (x ++ b).toNat = x.toNat * 2 ^ 8 + b.toNat := by
  rw [BitVec.toNat_append, ← Nat.shiftLeft_add_eq_or_of_lt b.isLt, Nat.shiftLeft_eq]

/-- The value of four bytes, the first the most significant (R30). -/
theorem toNat_be32 (b0 b1 b2 b3 : Byte) :
    (be32 b0 b1 b2 b3).toNat = b0.toNat * 2 ^ 24 + b1.toNat * 2 ^ 16 + b2.toNat * 2 ^ 8 + b3.toNat := by
  simp only [be32, toNat_append_byte]
  omega

/-- Four bytes cut out of a word and put together again. -/
theorem be32_extractLsb' (v : Word) :
    be32 (v.extractLsb' 24 8) (v.extractLsb' 16 8) (v.extractLsb' 8 8) (v.extractLsb' 0 8) = v := by
  refine BitVec.eq_of_toNat_eq ?_
  simp only [toNat_be32, BitVec.extractLsb'_toNat, Nat.shiftRight_eq_div_pow]
  have hv : v.toNat < 2 ^ 32 := v.isLt
  omega

/-! ### The schedule over any sixteen words -/

/-- The block whose big-endian words are the schedule words of `x`; `word_blockOfWords` ties it to them. -/
def blockOfWords (x : Scratch) : Block := fun i => (x.wAt (i / 4)).extractLsb' (24 - 8 * (i % 4)) 8

/-- Its word `j` is `W[j]`, read big-endian (R30, R78). -/
theorem word_blockOfWords (x : Scratch) (j : Nat) : Block.word (blockOfWords x) j = x.wAt j := by
  have hbyte (k : Nat) (hk : k < 4) :
      blockOfWords x (4 * j + k) = (x.wAt j).extractLsb' (24 - 8 * k) 8 := by
    rw [blockOfWords, Nat.mul_add_div (by decide), Nat.div_eq_of_lt hk, Nat.mul_add_mod, Nat.mod_eq_of_lt hk,
      Nat.add_zero]
  rw [Block.word, hbyte 1 (by decide), hbyte 2 (by decide), hbyte 3 (by decide), ← Nat.add_zero (4 * j),
    hbyte 0 (by decide)]
  exact be32_extractLsb' _

/-- The loaded words stay (R79). -/
theorem wAt_schedule_of_lt (x : Scratch) {j : Nat} (hj : j < 16) : (schedule x).wAt j = x.wAt j := by
  rw [schedule_eq_steps, wAt_scheduleSteps_other 64 x (.inl hj)]

/-- Every other word is the one that its SCHED computes from the finished schedule (R79, R80). -/
theorem wAt_schedule_of_ge (x : Scratch) {i : Nat} (h16 : 16 ≤ i) (h80 : i < 80) :
    (schedule x).wAt i = schedWord (schedule x) i := by
  rw [schedule_eq_steps]
  exact wAt_scheduleSteps 64 x (Nat.le_refl _) h16 h80

/-- The schedule over any sixteen words is the canonical one of the block that they make (R80). -/
theorem wAt_schedule (x : Scratch) {i : Nat} (hi : i < 80) :
    (schedule x).wAt i = scheduleWord (blockOfWords x) i := by
  induction i using Nat.strongRecOn with
  | ind i ih =>
    by_cases h16 : i < 16
    · rw [wAt_schedule_of_lt x h16, scheduleWord_of_lt _ h16, word_blockOfWords]
    · rw [wAt_schedule_of_ge x (by omega) hi]
      exact schedWord_eq_scheduleWord _ (by omega) fun j hj => ih j hj (by omega)

/-- The schedule leaves the working registers as they were (R79). -/
theorem working_schedule (x : Scratch) : (schedule x).working = x.working :=
  foldl_keeps Scratch.working (fun x i => sched i x) (fun _ _ => rfl) _ x

/-! ### Rounds -/

@[simp] theorem round_b (t : Nat) (x : Scratch) : (round t x).b = x.a := rfl
@[simp] theorem round_c (t : Nat) (x : Scratch) : (round t x).c = rotl32 x.b 30 := rfl
@[simp] theorem round_d (t : Nat) (x : Scratch) : (round t x).d = x.c := rfl
@[simp] theorem round_e (t : Nat) (x : Scratch) : (round t x).e = x.d := rfl
@[simp] theorem round_tmp (t : Nat) (x : Scratch) : (round t x).tmp = (round t x).a := rfl

/-- The sum that a round puts into A, as numbers (R84). -/
theorem toNat_round_a (t : Nat) (x : Scratch) :
    (round t x).a.toNat = ((rotl32 x.a 5).toNat + (roundF t x.b x.c x.d).toNat + x.e.toNat +
      (roundK t).toNat + (x.wAt t).toNat) % 2 ^ 32 := by
  have hsum : (round t x).a = roundSum t x := rfl
  simp only [hsum, roundSum, toNat_add32, Nat.mod_add_mod]
  rfl

/-! ### COMPRESS -/

/-- What ADDBACK gets: the registers after the schedule and the eighty rounds (R87). -/
theorem roundsDone_eq (s : State) : roundsDone s = rounds (schedule (loadw s)) := by
  unfold roundsDone
  rfl

/-- Adding back changes H, NBLK and the scratch registers, whatever the rounds left (R85, R86). -/
theorem addRounds_frame (x : Scratch) (s : State) :
    { addRounds x s with h := s.h, nblk := s.nblk, scratch := s.scratch } = s := rfl

end Sys2Proof.Machine

namespace Sys2Proof.Proofs
open Sys2Proof Sys2Proof.Machine

/-- Settles O34: round by round the registers are those of the recurrence, and a round shifts the pipeline by one
register. -/
theorem compressIsBlockFunction : Obligations.CompressIsBlockFunction := by
  refine ⟨compress_h_eq_compressHash, fun s n hn => working_firstRounds s hn, fun x n => ?_,
    fun m h n => ⟨rfl, rfl, rfl, rfl⟩⟩
  simp only [firstRounds_succ, round_b, round_c, round_d, round_e, and_self]

/-- Settles O27: where a bit goes under a rotation. -/
theorem rotationMovesBits : Obligations.RotationMovesBits := by
  refine ⟨fun x n i _ hn hi => getLsbD_rotl32_moved x hn hi, fun x y n _ hn => rotl32_xor x y (by omega),
    rotl_one_one, fun x r => ?_⟩
  cases r with
  | one => exact .inl rfl
  | two => exact .inr (.inl rfl)
  | five => exact .inr (.inr (.inl rfl))
  | thirty => exact .inr (.inr (.inr rfl))

/-- Settles O29: the group of a round picks one of three functions, each known bit by bit. -/
theorem roundFunctionBits : Obligations.RoundFunctionBits := by
  intro t b c d i _ hi
  rw [roundF, roundGroup_eq, ← getLsbD_choose b c d hi, ← getLsbD_parity, ← getLsbD_majority]
  split_ifs <;> rfl

/-- Settles O31: the words that LOADW reads are big-endian. -/
theorem loadBigEndianWords : Obligations.LoadBigEndianWords := by
  refine fun s => ⟨fun j hj => ?_, rfl, rfl, rfl, rfl, rfl⟩
  rw [loadw_wAt, wAt_loadBlock s j hj, memRead32, toNat_be32]

/-- Settles O32: the schedule is the canonical one of a block, whose words satisfy both recurrences. -/
theorem scheduleIsCanonical : Obligations.ScheduleIsCanonical := by
  intro x
  have hworking := working_schedule x
  simp only [Scratch.working, Hash.mk.injEq] at hworking
  refine ⟨fun i h16 h80 => ?_, fun i h32 h80 => ?_, fun j hj => wAt_schedule_of_lt x hj, hworking⟩
  · simp (disch := omega) only [wAt_schedule]
    exact scheduleWord_of_ge _ h16
  · rw [wAt_schedule_of_ge x (by omega) h80, schedWord, if_neg (by omega)]
    rfl

/-- Settles O35: COMPRESS ends by adding back, and H is the block function of the old H and the block. -/
theorem compressFrame : Obligations.CompressFrame := by
  refine ⟨fun s => ⟨?_, ?_⟩, fun s t hh hb => compress_h_congr hh hb⟩
  · rw [compress_nblk, BitVec.toNat_add]
    rfl
  · rw [compress, addRounds_frame]

/-- Settles O28: each addition of ADDBACK is one of the datapath's. -/
theorem addbackAddsModulo : Obligations.AddbackAddsModulo := by
  refine ⟨toNat_add32, fun h x => ⟨toNat_add32 _ _, toNat_add32 _ _, toNat_add32 _ _, toNat_add32 _ _,
    toNat_add32 _ _⟩, fun s => (compress_h s).trans (congrArg (addback s.h) (roundsDone_eq s))⟩

/-- Settles O30: one constant for each group of rounds. -/
theorem roundConstants : Obligations.RoundConstants := by
  intro t _
  rw [roundK, roundGroup_eq]
  split_ifs <;> rfl

/-- Settles O33: the values before the round, shifted by one register, and the sum in A. -/
theorem roundUpdatesWorkingRegisters : Obligations.RoundUpdatesWorkingRegisters :=
  fun t x => ⟨toNat_round_a t x, round_tmp t x, round_b t x, round_c t x, round_d t x, round_e t x, round_w t x⟩

end Sys2Proof.Proofs

/-! PROOFS. The family of 43_finish.md: the captured length, MARK, the path decision, PUTLEN, FINISH as a whole, and
the digest of a message. First the length and its bytes; then each operation of the padding engine; then the block
that they leave to the last COMPRESS; then the bytes of the padded message, which are those blocks; then the
statements. -/

namespace Sys2Proof.Machine

/-! ### The captured length and its bytes -/

/-- The captured length, as numbers: neither the product nor the sum loses more than a multiple of 2^64 (R95). -/
theorem toNat_bitLength (nblk : Long) (filled : BitVec 7) :
    (bitLength nblk filled).toNat = (nblk.toNat * 512 + 8 * filled.toNat) % 2 ^ 64 := by
  simp only [bitLength, BitVec.toNat_add, BitVec.toNat_mul, BitVec.toNat_setWidth, BitVec.toNat_ofNat]
  omega

/-- The captured length, as the bit vector of a number (R95). -/
theorem bitLength_eq_ofNat (nblk : Long) (filled : BitVec 7) :
    bitLength nblk filled = BitVec.ofNat 64 (nblk.toNat * 512 + 8 * filled.toNat) :=
  BitVec.eq_of_toNat_eq <| (toNat_bitLength nblk filled).trans (BitVec.toNat_ofNat _ _).symm

/-- A field of a bit vector, as numbers. -/
theorem toNat_field {w : Nat} (x : BitVec w) (start len : Nat) :
    (x.extractLsb' start len).toNat = x.toNat / 2 ^ start % 2 ^ len := by
  rw [BitVec.extractLsb'_toNat, Nat.shiftRight_eq_div_pow]

/-- The fields of the captured length: with `FILLED < 64` the sum never carries out of the low nine bits (R95). -/
theorem bitLength_fields (nblk : Long) {filled : BitVec 7} (hf : filled.toNat < 64) :
    (bitLength nblk filled).extractLsb' 9 55 = nblk.extractLsb' 0 55 ∧
    (bitLength nblk filled).extractLsb' 3 6 = filled.extractLsb' 0 6 ∧
    (bitLength nblk filled).extractLsb' 0 3 = 0#3 := by
  refine ⟨BitVec.eq_of_toNat_eq ?_, BitVec.eq_of_toNat_eq ?_, BitVec.eq_of_toNat_eq ?_⟩
  all_goals
    simp only [toNat_field, toNat_bitLength, BitVec.toNat_ofNat]
    omega

/-- A field of a field is a field of the whole. -/
theorem extractLsb'_of_field {w : Nat} (x : BitVec w) {start len start' len' : Nat} (h : start' + len' ≤ len) :
    (x.extractLsb' start len).extractLsb' start' len' = x.extractLsb' (start + start') len' := by
  refine BitVec.eq_of_getLsbD_eq fun i hi => ?_
  have hin : start' + i < len := by omega
  simp [hi, hin, Nat.add_assoc]

/-- Four bytes of a 64-bit value, from byte `k` on, read back as a word (R30, R34). -/
theorem be32_beByte (v : Long) {k : Nat} (hk : k ≤ 4) :
    be32 (beByte v k) (beByte v (k + 1)) (beByte v (k + 2)) (beByte v (k + 3)) =
      v.extractLsb' (32 - 8 * k) 32 := by
  have hbyte (j : Nat) (hj : j ≤ 3) :
      beByte v (k + j) = (v.extractLsb' (32 - 8 * k) 32).extractLsb' (24 - 8 * j) 8 := by
    rw [beByte, extractLsb'_of_field v (by omega)]
    congr 1
    omega
  rw [← Nat.add_zero k, hbyte 0 (by decide), Nat.add_zero, hbyte 1 (by decide), hbyte 2 (by decide),
    hbyte 3 (by decide)]
  exact be32_extractLsb' _

/-! ### The operations of the padding engine -/

section
variable {s : State}

/-- MARK stores the terminator as a PUSH stores its byte (R96). -/
theorem mark_eq_storeByte (hf : s.filled.toNat < 64) : mark s = .ok (storeByte terminator s) := mark_of_lt hf

/-- The path of one block (R97, R98). -/
theorem fillBlock_of_le (h : s.filled.toNat ≤ 56) : fillBlock s = zfill s :=
  if_pos (by simpa [lengthFits, BitVec.ule_eq_decide] using h)

/-- The path of two blocks (R97, R99). -/
theorem fillBlock_of_gt (h : 56 < s.filled.toNat) : fillBlock s = spill s :=
  if_neg (by simpa [lengthFits, BitVec.ule_eq_decide] using h)

/-- SPILL compresses the bytes below FILLED and zeros after them (R99). -/
theorem spill_h_eq_compressHash (s : State) :
    (spill s).h = compressHash s.h (fun i => if s.filled.toNat ≤ i then 0#8 else s.byteAt i) := by
  rw [spill_h, compress_h_eq_compressHash, zeroFill_h]
  refine compressHash_congr fun i hi => ?_
  simp [State.block, byteAt_zeroFill, hi]

/-- The length reads back as two words (R30, R34, R100). -/
theorem memRead32_putlen (s : State) {k : Nat} (hk : k ≤ 4) :
    memRead32 (putlen s) (56 + k) = s.lenreg.extractLsb' (32 - 8 * k) 32 := by
  have hbyte (j : Nat) (hj : j < 8) : (putlen s).byteAt (56 + j) = beByte s.lenreg j := by
    rw [byteAt_putlen, if_pos (by omega), Nat.add_sub_cancel_left]
  simp only [memRead32, Nat.add_assoc]
  rw [hbyte k (by omega), hbyte (k + 1) (by omega), hbyte (k + 2) (by omega), hbyte (k + 3) (by omega),
    be32_beByte _ hk]

end

/-! ### The block that FINISH compresses last -/

/-- The state that FINISH leaves to its last COMPRESS (R101); `exec_finish_eq_paddedBlock` ties it to the command. -/
def paddedBlock (s : State) : State := putlen (fillBlock (storeByte terminator (capture s)))

section
variable {s : State}

/-- FINISH, as R140 allows it, pads, compresses and responds (R101). -/
theorem exec_finish_eq_paddedBlock (hc : s.consumed = false) (hf : s.filled.toNat < 64) :
    exec .finish s = .next (finishEnd (compress (paddedBlock s))) := by
  rw [exec_finish_of_lt hc hf, paddedBlock, storeByte, capture_filled]

/-- What PUTLEN writes is the length captured before padding (R95, R100). -/
@[simp] theorem paddedBlock_lenreg (s : State) : (paddedBlock s).lenreg = bitLength s.nblk s.filled := by
  simp [paddedBlock]

/-- A byte after MARK (R96). -/
theorem byteAt_marked (s : State) (a : Nat) :
    (storeByte terminator (capture s)).byteAt a = if a = s.filled.toNat then terminator else s.byteAt a := by
  rw [byteAt_storeByte, capture_filled, byteAt_capture]

/-- FILLED after MARK (R96). -/
theorem filled_marked (hf : s.filled.toNat < 64) :
    (storeByte terminator (capture s)).filled.toNat = s.filled.toNat + 1 := filled_storeByte (s := capture s) _ hf

section
variable (hp : s.filled.toNat ≤ 55)
include hp

/-- With `p <= 55` FINISH zero fills its only block (R98, R102). -/
theorem paddedBlock_of_le : paddedBlock s = putlen (zfill (storeByte terminator (capture s))) := by
  rw [paddedBlock, fillBlock_of_le (by rw [filled_marked (by omega)]; omega)]

/-- The buffer is then the one block of R38, and an index that does not exist reads as before. -/
theorem byteAt_paddedBlock_of_le (a : Nat) :
    (paddedBlock s).byteAt a =
      if a < 64 then oneBlock s s.filled.toNat (bitLength s.nblk s.filled) a else s.byteAt a := by
  rw [paddedBlock_of_le hp, byteAt_putlen, byteAt_zfill, byteAt_marked, filled_marked (by omega)]
  simp only [zfill_lenreg, storeByte_lenreg, capture_lenreg, oneBlock, terminator]
  -- both sides ask where `a` lies among FILLED, 56 and 64, in different orders
  grind

/-- H after the last COMPRESS (R101, R103). -/
theorem h_compress_paddedBlock_of_le :
    (compress (paddedBlock s)).h =
      compressHash s.h (oneBlock s s.filled.toNat (bitLength s.nblk s.filled)) := by
  have hh : (paddedBlock s).h = s.h := by simp [paddedBlock_of_le hp]
  rw [compress_h_eq_compressHash, hh]
  refine compressHash_congr fun i hi => ?_
  rw [State.block, byteAt_paddedBlock_of_le hp, if_pos hi]

end

section
variable (hp : 56 ≤ s.filled.toNat) (hf : s.filled.toNat < 64)
include hp hf

/-- With `p` from 56 to 63 FINISH compresses a first block (R99, R102). -/
theorem paddedBlock_of_ge : paddedBlock s = putlen (spill (storeByte terminator (capture s))) := by
  rw [paddedBlock, fillBlock_of_gt (by rw [filled_marked hf]; omega)]

/-- The buffer is then the second block of R38, and an index that does not exist reads as before. -/
theorem byteAt_paddedBlock_of_ge (a : Nat) :
    (paddedBlock s).byteAt a =
      if a < 64 then secondOfTwo (bitLength s.nblk s.filled) a else s.byteAt a := by
  rw [paddedBlock_of_ge hp hf, byteAt_putlen, byteAt_spill, byteAt_marked, filled_marked hf]
  simp only [spill_lenreg, storeByte_lenreg, capture_lenreg, secondOfTwo]
  -- FILLED and the terminator lie at 56 or above, under the length
  grind

/-- H after the first COMPRESS (R99). -/
theorem h_paddedBlock_of_ge : (paddedBlock s).h = compressHash s.h (firstOfTwo s s.filled.toNat) := by
  rw [paddedBlock_of_ge hp hf, putlen_h, spill_h_eq_compressHash, storeByte_h, capture_h]
  refine compressHash_congr fun i _ => ?_
  rw [byteAt_marked, filled_marked hf, firstOfTwo, terminator]
  rcases Nat.lt_trichotomy i s.filled.toNat with h | h | h
  · rw [if_neg (by omega), if_neg (by omega), if_pos h]
  · rw [if_neg (by omega), if_pos h, if_neg (by omega), if_pos h]
  · rw [if_pos (by omega), if_neg (by omega), if_neg (by omega)]

/-- H after the last COMPRESS (R101, R103). -/
theorem h_compress_paddedBlock_of_ge :
    (compress (paddedBlock s)).h =
      compressHash (compressHash s.h (firstOfTwo s s.filled.toNat))
        (secondOfTwo (bitLength s.nblk s.filled)) := by
  rw [compress_h_eq_compressHash, h_paddedBlock_of_ge hp hf]
  refine compressHash_congr fun i hi => ?_
  rw [State.block, byteAt_paddedBlock_of_ge hp hf, if_pos hi]

end

/-- NBLK counts the one or two blocks (R102, R104). -/
theorem nblk_compress_paddedBlock (hf : s.filled.toNat < 64) :
    (compress (paddedBlock s)).nblk = s.nblk + BitVec.ofNat 64 ((s.filled.toNat + 72) / 64) := by
  rw [compress_nblk]
  by_cases hp : s.filled.toNat ≤ 55
  · rw [paddedBlock_of_le hp, putlen_nblk, zfill_nblk, storeByte_nblk, capture_nblk,
      show (s.filled.toNat + 72) / 64 = 1 by omega]
  · rw [paddedBlock_of_ge (by omega) hf, putlen_nblk, spill_nblk, storeByte_nblk, capture_nblk,
      show (s.filled.toNat + 72) / 64 = 2 by omega, BitVec.add_assoc]
    rfl

end

/-! ### The padded message -/

section
variable (data : List Byte)

/-- The zeros reach to the length field of the last block (R105). -/
theorem length_add_zeroCount (m : Nat) : m + 9 + zeroCount m = 64 * ((m + 72) / 64) := by
  rw [zeroCount]
  omega

/-- The length of the padded message (R105). -/
theorem length_padded : (padded data).length = 64 * ((data.length + 72) / 64) := by
  rw [← length_add_zeroCount]
  simp [padded, lengthBytes]
  omega

/-- The padded message, byte by byte (R105). -/
theorem getD_padded {j : Nat} (hj : j < 64 * ((data.length + 72) / 64)) :
    (padded data).getD j 0#8 =
      if j < data.length then data.getD j 0#8
      else if j = data.length then 0x80#8
      else if j < 64 * ((data.length + 72) / 64) - 8 then 0#8
      else beByte (BitVec.ofNat 64 (8 * data.length)) (j - (64 * ((data.length + 72) / 64) - 8)) := by
  have hlen := length_add_zeroCount data.length
  rw [padded]
  split_ifs with hmsg hterm hzero
  · rw [List.getD_append _ _ _ _ hmsg]
  · subst hterm
    simp [List.getD_eq_getElem?_getD, terminator]
  · rw [List.getD_append_right _ _ _ _ (by omega), show j - data.length = (j - data.length - 1) + 1 by omega,
      List.getD_cons_succ, List.getD_append _ _ _ _ (by rw [List.length_replicate]; omega),
      List.getD_replicate _ (by omega)]
  · rw [List.getD_append_right _ _ _ _ (by omega), show j - data.length = (j - data.length - 1) + 1 by omega,
      List.getD_cons_succ, List.getD_append_right _ _ _ _ (by rw [List.length_replicate]; omega),
      List.length_replicate, lengthBytes, beBytes_getD _ (by omega)]
    congr 1
    omega

/-- The whole blocks of the message are blocks of the padded message (R105). -/
theorem chain_padded (h : Hash) :
    chain (padded data) h (data.length / 64) = chain data h (data.length / 64) :=
  chain_append _ _ _ (Nat.mul_div_le _ _)

section
variable {data} {s : State} {i : Nat}
  (hvalid : ∀ i, i < data.length % 64 → s.byteAt i = data.getD (64 * (data.length / 64) + i) 0#8)
  (hi : i < 64)
include hvalid hi

/-- With the last bytes of the message in the buffer, the one padding block is block `m / 64` of the padded message
(R38, R105). -/
theorem oneBlock_eq_blockOf_padded (hp : data.length % 64 ≤ 55) :
    oneBlock s (data.length % 64) (BitVec.ofNat 64 (8 * data.length)) i =
      blockOf (padded data) (data.length / 64) i := by
  rw [blockOf, getD_padded data (by omega), oneBlock]
  refine if_ctx_congr (by omega) (fun _ => hvalid i (by omega)) fun _ =>
    if_congr (by omega) rfl <| if_congr (by omega) rfl ?_
  congr 1
  omega

/-- The first of two padding blocks is block `m / 64` (R38, R105). -/
theorem firstOfTwo_eq_blockOf_padded (hp : 56 ≤ data.length % 64) :
    firstOfTwo s (data.length % 64) i = blockOf (padded data) (data.length / 64) i := by
  rw [blockOf, getD_padded data (by omega), firstOfTwo]
  refine if_ctx_congr (by omega) (fun _ => hvalid i (by omega)) fun _ => if_congr (by omega) rfl ?_
  rw [if_pos (by omega)]

end

/-- The second of two padding blocks is the block after it (R38, R105). -/
theorem secondOfTwo_eq_blockOf_padded {i : Nat} (hp : 56 ≤ data.length % 64) (hi : i < 64) :
    secondOfTwo (BitVec.ofNat 64 (8 * data.length)) i = blockOf (padded data) (data.length / 64 + 1) i := by
  rw [blockOf, getD_padded data (by omega), if_neg (by omega), if_neg (by omega), secondOfTwo]
  refine if_congr (by omega) rfl ?_
  congr 1
  omega

end

/-! ### The digest of a message -/

section
variable {s : State} (hs : s.Fresh) (data : List Byte)
include hs

/-- NBLK after the pushes from a fresh state (R70). -/
theorem State.Fresh.nblk_absorbBytes : (absorbBytes data s).nblk = BitVec.ofNat 64 (data.length / 64) := by
  simpa [hs.filled, hs.nblk] using Machine.nblk_absorbBytes (s := s) data (by simp [hs.filled])

/-- The length that FINISH captures is eight times the number of bytes pushed, modulo 2^64 (R95, R105). -/
theorem State.Fresh.bitLength_absorbBytes :
    bitLength (absorbBytes data s).nblk (absorbBytes data s).filled = BitVec.ofNat 64 (8 * data.length) := by
  refine BitVec.eq_of_toNat_eq ?_
  rw [toNat_bitLength, hs.nblk_absorbBytes, filled_absorbBytes_of_empty hs.filled]
  simp only [BitVec.toNat_ofNat]
  omega

/-- FINISH compresses the last of the padded message: H is its SHA-1 value (R103). -/
theorem State.Fresh.h_compress_paddedBlock : (compress (paddedBlock (absorbBytes data s))).h = sha1 data := by
  have hfilled := filled_absorbBytes_of_empty hs.filled data
  have hchain : chain (padded data) iv (data.length / 64) = (absorbBytes data s).h := by
    rw [chain_padded, h_absorbBytes_of_empty hs.filled, hs.hash]
  have hvalid (i : Nat) (hi : i < data.length % 64) :
      (absorbBytes data s).byteAt i = data.getD (64 * (data.length / 64) + i) 0#8 := by
    rw [byteAt_absorbBytes_of_empty hs.filled data (by omega), bufferAfter_of_lt s hi]
  by_cases hp : data.length % 64 ≤ 55
  · rw [h_compress_paddedBlock_of_le (by omega), hs.bitLength_absorbBytes, hfilled, sha1,
      show (data.length + 72) / 64 = data.length / 64 + 1 by omega, chain, hchain]
    exact compressHash_congr fun i hi => oneBlock_eq_blockOf_padded hvalid hi hp
  · rw [h_compress_paddedBlock_of_ge (by omega) (by omega), hs.bitLength_absorbBytes, hfilled, sha1,
      show (data.length + 72) / 64 = data.length / 64 + 1 + 1 by omega, chain, chain, hchain,
      compressHash_congr fun i hi => firstOfTwo_eq_blockOf_padded hvalid hi (by omega)]
    exact compressHash_congr fun i hi => secondOfTwo_eq_blockOf_padded data (by omega) hi

/-- NBLK counts all the blocks of the padded message (R103, R104). -/
theorem State.Fresh.nblk_compress_paddedBlock :
    (compress (paddedBlock (absorbBytes data s))).nblk = BitVec.ofNat 64 ((data.length + 72) / 64) := by
  have hfilled := filled_absorbBytes_of_empty hs.filled data
  rw [Machine.nblk_compress_paddedBlock (by omega), hs.nblk_absorbBytes, hfilled, ← BitVec.ofNat_add]
  congr 1
  omega

/-- PUSH commands and a FINISH from a fresh state: the digest is delivered and stays in H (R103, R104). -/
theorem State.Fresh.runOps_pushes_finish (hr : s.rsp = none) :
    ∃ t, runOps (pushes data ++ [.cmd .finish]) s = .next t ∧
      t.delivered = s.delivered ++ [(sha1 data).digest] ∧ t.h = sha1 data ∧ t.consumed = true ∧
      t.rsp = none ∧ t.nblk = BitVec.ofNat 64 ((data.length + 72) / 64) := by
  obtain ⟨hrun, -, hside⟩ := runOps_pushes data hs.notConsumed (by simp [hs.filled]) hr
  have hexec := exec_finish_eq_paddedBlock (s := absorbBytes data s)
    ((absorbBytes_consumed data s).trans hs.notConsumed)
    (by rw [filled_absorbBytes_of_empty hs.filled]; exact Nat.mod_lt _ (by decide))
  have hh := hs.h_compress_paddedBlock data
  have hdelivered := (hside.trans (exec_sameHostSide hexec)).delivered
  generalize hu : finishEnd (compress (paddedBlock (absorbBytes data s))) = u at hexec hdelivered
  have hrsp : u.rsp = some (sha1 data).digest := by rw [← hu, finishEnd_rsp, hh]
  refine ⟨takeResponse (sha1 data).digest u, ?_, ?_, ?_, ?_, takeResponse_rsp _ _, ?_⟩
  · simp only [runOps_append, hrun, runOps, runOp_of_exec hexec, takePending_of_some hrsp]
  · rw [takeResponse_delivered, hdelivered]
  · rw [takeResponse_h, ← hu, finishEnd_h, hh]
  · rw [takeResponse_consumed, ← hu, finishEnd_consumed]
  · rw [takeResponse_nblk, ← hu, finishEnd_nblk, hs.nblk_compress_paddedBlock]

end

end Sys2Proof.Machine

namespace Sys2Proof.Proofs
open Sys2Proof Sys2Proof.Machine

/-- Settles O36: the low nine bits of the sum hold eight times FILLED. -/
theorem captureLength : Obligations.CaptureLength := by
  intro s
  rw [capture_lenreg]
  exact ⟨toNat_bitLength _ _, bitLength_fields _, rfl⟩

/-- Settles O38: the two paths after MARK are ZFILL and SPILL. -/
theorem fillBlockTakesOneOrTwoBlocks : Obligations.FillBlockTakesOneOrTwoBlocks := by
  refine fun s => ⟨fun h => ?_, fun h _ => ?_⟩
  · rw [fillBlock_of_le h]
    exact ⟨byteAt_zfill s, rfl⟩
  · rw [fillBlock_of_gt h]
    refine ⟨spill_h_eq_compressHash s, ?_, byteAt_spill s, ?_⟩
    · rw [spill_nblk, BitVec.toNat_add]
      rfl
    · apply State.ext <;> simp

/-- Settles O39: the bytes of a 64-bit value, one by one and read back as words. -/
theorem putlenWritesBigEndian : Obligations.PutlenWritesBigEndian := by
  refine fun s => ⟨fun k hk => ?_, memRead32_putlen s (k := 0) (by decide),
    memRead32_putlen s (k := 4) (by decide), fun a ha => ?_, rfl⟩
  · rw [byteAt_putlen, if_pos (by omega), Nat.add_sub_cancel_left, beByte, toNat_field]
  · rw [byteAt_putlen, if_neg (by omega)]

/-- Settles O40: each path leaves its last block in the buffer, and FINISH ends with its compression. -/
theorem finishPadsAndResponds : Obligations.FinishPadsAndResponds := by
  intro s hc hf len last
  have hlen : bitLength s.nblk s.filled = len := bitLength_eq_ofNat _ _
  have hexec := exec_finish_eq_paddedBlock hc hf
  have hnblk := nblk_compress_paddedBlock hf
  have hone (hp : s.filled.toNat ≤ 55) : last = oneBlock s s.filled.toNat len := if_pos hp
  have htwo (hp : 56 ≤ s.filled.toNat) : last = secondOfTwo len := if_neg (by omega)
  have hbyte (a : Nat) : (paddedBlock s).byteAt a = if a < 64 then last a else s.byteAt a := by
    by_cases hp : s.filled.toNat ≤ 55
    · rw [byteAt_paddedBlock_of_le hp, hlen, hone hp]
    · rw [byteAt_paddedBlock_of_ge (by omega) hf, hlen, htwo (by omega)]
  refine ⟨finishEnd (compress (paddedBlock s)), hexec, fun hp => ⟨?_, ?_⟩, fun hp => ⟨?_, ?_⟩, ?_, ?_,
    finishEnd_consumed _, ?_, fun i hi => ?_, fun a ha => ?_, exec_sameHostSide hexec⟩
  · rw [finishEnd_h, h_compress_paddedBlock_of_le hp, hlen, hone hp]
  · rw [finishEnd_nblk, hnblk, show (s.filled.toNat + 72) / 64 = 1 by omega]
  · rw [finishEnd_h, h_compress_paddedBlock_of_ge hp hf, hlen, htwo hp]
  · rw [finishEnd_nblk, hnblk, show (s.filled.toNat + 72) / 64 = 2 by omega]
  · rw [finishEnd_rsp, finishEnd_h, Hash.digest]
  · rw [finishEnd_lenreg, compress_lenreg, paddedBlock_lenreg, hlen]
  · rw [finishEnd_filled]
    exact toNat_freeFilled _
  · rw [byteAt_finishEnd, byteAt_compress, hbyte, if_pos hi]
  · rw [byteAt_finishEnd, byteAt_compress, hbyte, if_neg (by omega)]

/-- Settles O46: FINISH compresses the rest of the padded message; DIGEST begins with a RESET, which makes any state
fresh. -/
theorem digestIsSha1 : Obligations.DigestIsSha1 := by
  refine fun data => ⟨fun s hs hr => hs.runOps_pushes_finish data hr, fun s hr => ?_, length_padded data, ?_, ?_⟩
  · obtain ⟨t, hrun, hdelivered, hh, hc, hrsp, -⟩ :=
      (fresh_endDraw_toInitial s).runOps_pushes_finish data (by simpa using hr)
    refine ⟨t, (runOps_reset_cons hr _).trans hrun, ?_, hh, hc, hrsp⟩
    rw [hdelivered, endDraw_delivered, toInitial_delivered]
  · have hlen := length_add_zeroCount data.length
    omega
  · exact Nat.mod_lt _ (by decide)

/-- Settles O37: MARK stores the terminator as a PUSH stores its byte. -/
theorem markPutsTerminator : Obligations.MarkPutsTerminator := by
  intro s hf
  refine ⟨storeByte terminator s, mark_eq_storeByte hf, ?_, fun a ha => ?_, filled_storeByte terminator hf,
    storeByte_h _ s, storeByte_nblk _ s, storeByte_lenreg _ s⟩
  · rw [byteAt_storeByte, if_pos rfl, terminator]
  · rw [byteAt_storeByte, if_neg ha]

end Sys2Proof.Proofs

/-! PROOFS. The family of 60_exceptions.md: a step from a state of the invariant never faults, and an idle core keeps
its state. First where a command can fault and what an edge makes of it; then the edge at which nothing happens; then
the statements. -/

namespace Sys2Proof.Machine

/-! ### Faults -/

/-- Everything a fault of a command says: a PUSH or FINISH was to store at a FILLED that no byte of the buffer has
(R12, log 11). -/
theorem exec_fault_cases {i : Instr} {s : State} {f : Fault} (h : exec i s = .fault f) :
    i ≠ .reset ∧ s.consumed = false ∧ 64 ≤ s.filled.toNat ∧ f = .noBufferByte s.filled.toNat := by
  cases i with
  | reset => cases h
  | push d =>
    cases hc : s.consumed with
    | true => rw [exec_push_of_consumed d hc] at h; cases h
    | false =>
      rcases Nat.lt_or_ge s.filled.toNat 64 with hf | hf
      · rw [exec_push_eq_absorbByte d hc hf] at h; cases h
      · rw [exec_push_of_ge d hc hf] at h; cases h; exact ⟨nofun, rfl, hf, rfl⟩
  | finish =>
    cases hc : s.consumed with
    | true => rw [exec_finish_of_consumed hc] at h; cases h
    | false =>
      rcases Nat.lt_or_ge s.filled.toNat 64 with hf | hf
      · rw [exec_finish_of_lt hc hf] at h; cases h
      · rw [exec_finish_of_ge hc hf] at h; cases h; exact ⟨nofun, rfl, hf, rfl⟩

/-- No edge faults while the invariant holds: its bound on FILLED is what a faulting command breaks (R14a, R120). -/
theorem State.Inv.edge_ne_fault {s : State} (h : s.Inv) (e : PortIn) (f : Fault) : Machine.edge e s ≠ .fault f := by
  intro hfault
  obtain ⟨i, hexec⟩ := edge_fault_cases hfault
  obtain ⟨-, -, hge, -⟩ := exec_fault_cases hexec
  exact absurd h.releaseHeld.filledBound (Nat.not_lt.mpr hge)

/-! ### The idle edge -/

/-- Without `cmd_valid` no word is presented (R51). -/
theorem presented_of_not_valid {e : PortIn} (hv : e.cmdValid = false) : e.presented = none := by
  simp [PortIn.presented, hv]

/-- An edge that presents what is held already changes nothing. -/
theorem keepPresented_of_held {e : PortIn} {s : State} (h : s.held = e.presented) : keepPresented e s = s := by
  rw [keepPresented, ← h]

end Sys2Proof.Machine

namespace Sys2Proof.Proofs
open Sys2Proof Sys2Proof.Machine

/-- Settles O18: the invariant holds at the edge that the step samples, and there no command can fault. -/
theorem stepNeverFaults : Obligations.StepNeverFaults :=
  fun s f h => h.dropEdge.edge_ne_fault s.nextEdge f

/-- Settles O10: the edge is idle, and the word that it presents, none, is the one held before. -/
theorem idleCoreKeepsState : Obligations.IdleCoreKeepsState := by
  intro s hb hx hh hr hv
  have hp := presented_of_not_valid hv
  rw [step, edge_of_idle (s := dropEdge s) hr (.inl hh) hb hx hp,
    keepPresented_of_held (s := dropEdge s) (hh.trans hp.symm)]
  rfl

end Sys2Proof.Proofs

/-! PROOFS. The family of 70_reset_and_hazards.md: the core becomes ready when the host presents nothing and takes the
response, and the commands complete on a consumed state. First what taking a pending response leaves; then the edges
that a core needs to become ready; then the statements. -/

namespace Sys2Proof.Machine

/-! ### Taking a pending response -/

/-- The response that was pending, if any, is the last that the host has taken (R53). -/
theorem takePending_delivered (s : State) :
    (takePending s).delivered = s.delivered ++ s.rsp.toList := by
  cases hx : s.rsp with
  | none => simp [takePending_of_none hx]
  | some x => simp [takePending_of_some hx]

/-- A core that is not busy, and whose host holds no word, is ready once its response is taken (R51, R54). -/
theorem ready_takePending {s : State} (hb : s.busy = 0) (hh : s.held = none) : (takePending s).Ready := by
  cases hx : s.rsp with
  | none => rw [takePending_of_none hx]; exact ⟨hb, hx, hh⟩
  | some x => rw [takePending_of_some hx]; exact ⟨by simpa using hb, by simp, by simpa using hh⟩

/-- A ready core shows `cmd_ready` at an edge without `rst` (R51). -/
theorem State.Ready.cmdReady {s : State} (hs : s.Ready) : s.cmdReady false = true := by
  simp [State.cmdReady, hs.notBusy, hs.noResponse]

/-! ### The edges that a core needs to become ready -/

/-- One edge for a pending response, and none without one (R54). -/
def responseEdges (s : State) : Nat := if s.rsp.isSome then 1 else 0

/-- When the core is not busy, these edges take the pending response (R53, R54). -/
theorem run_responseEdges {s : State} (d : List PortIn) (hb : s.busy = 0) (hh : s.held = none) :
    Host.Core.run Sys2Proof.core (responseEdges s)
      (withDrive (List.replicate (responseEdges s) takeEdge ++ d) s) = .next (withDrive d (takePending s)) := by
  cases hx : s.rsp with
  | none =>
    have hn : responseEdges s = 0 := by simp [responseEdges, hx]
    rw [hn, takePending_of_none hx]
    rfl
  | some x =>
    have hn : responseEdges s = 1 := by simp [responseEdges, hx]
    rw [hn, takePending_of_some hx]
    exact run_of_step (step_takeEdge d hb hh hx)

/-- The edges for which the core is busy, and then the one for its response: the command in progress is over and the
response is taken (R51, R54). -/
theorem run_busy_responseEdges {s : State} (d : List PortIn) (hh : s.held = none)
    (hd : s.drive = List.replicate (s.busy + responseEdges s) takeEdge ++ d) :
    Host.Core.run Sys2Proof.core (s.busy + responseEdges s) s =
      .next (withDrive d (takePending (occupy 0 s))) := by
  have hbusy := run_busy_takeEdges s.busy (List.replicate (responseEdges s) takeEdge ++ d) hh
  have hs : occupy s.busy (withDrive (List.replicate s.busy takeEdge ++
      (List.replicate (responseEdges s) takeEdge ++ d)) s) = s := by
    rw [← List.append_assoc, ← List.replicate_add, ← hd]
    rfl
  rw [hs] at hbusy
  rw [run_add hbusy]
  exact run_responseEdges (s := occupy 0 s) d rfl hh

end Sys2Proof.Machine

namespace Sys2Proof.Proofs
open Sys2Proof Sys2Proof.Machine

/-- Settles O12: the busy edges go by, by induction on their number, and one more edge takes the response. -/
theorem coreBecomesReady : Obligations.CoreBecomesReady := by
  rintro s n rest hh rfl hd
  have hready : (takePending (occupy 0 s)).Ready := ready_takePending rfl hh
  exact ⟨_, run_busy_responseEdges rest hh hd, hready.cmdReady, rfl, hready.notHeld,
    takePending_delivered (occupy 0 s)⟩

/-- Settles O43: on a consumed state PUSH and FINISH are the draws of R141, of which FILLED is one below 64; what they
do to CONSUMED and to the ports holds of every PUSH and FINISH, and RESET makes every state fresh. -/
theorem misuseCompletes : Obligations.MisuseCompletes := by
  intro s hc
  refine ⟨fun d => ?_, ?_, _, exec_reset s, fresh_endDraw_toInitial s⟩
  · have hpush := exec_push_of_consumed d hc
    exact ⟨_, hpush, (consumed_of_exec_push hpush).trans hc, toNat_freeFilled s.draws,
      rsp_of_exec_of_ne_finish (i := .push d) nofun hpush, exec_sameHostSide hpush⟩
  · have hfinish := exec_finish_of_consumed hc
    exact ⟨_, hfinish, consumed_of_exec_finish hfinish, toNat_freeFilled s.draws,
      rsp_of_exec_finish hfinish, exec_sameHostSide hfinish⟩

end Sys2Proof.Proofs
